-- ==== Sys2Proof/Word.lean ====
section
/-! DEFINITION. The words of the block: bytes, command words and the 64-bit values of the operand bus and of `V`. -/

namespace Sys2Proof

/-- A byte: 8 bits, unsigned (R9). -/
abbrev Byte := BitVec 8

/-- A command word `cmd`, 32 bits (R70). -/
abbrev CmdWord := BitVec 32

/-- A value of the operand bus `opd` and of the register `V`, 64 bits, unsigned (R23, R70). -/
abbrev Value := BitVec 64

end Sys2Proof
end

