-- ==== Sys2Proof/Syntax.lean ====
section
/-! DEFINITION. The sixteen commands of the block (R2, R72), one constructor per row of the opcode table. -/

namespace Sys2Proof

/-- A command. Its operands are the 8-bit fields its format uses (R71, R73): a frame-buffer index `a`, then a byte, a
count, a size or a function code `b`, then the BCD size `c` of a decode. SETV's 64-bit operand is not in the word: it
stands on the operand bus (R70, R103). -/
inductive Instr where
  | nop
  | st (a b : Byte)
  | ld (a : Byte)
  | setv
  | chksum (a n : Byte)
  | chkadd (a n : Byte)
  | chkvfy (a n : Byte)
  | chkput (a n : Byte)
  | bcdenc (a size : Byte)
  | bcdencr (a size : Byte)
  | bcddec (a len size : Byte)
  | bcddecr (a len size : Byte)
  | obf (a n : Byte)
  | deobf (a n : Byte)
  | ctlx (a : Byte)
  | ctlpk (a f : Byte)
deriving DecidableEq, Repr

end Sys2Proof
end

