-- ==== Sys2Proof/WellFormed.lean ====
section
/-! DEFINITION. Well-formedness of a command word's fields (R71): the fields a format does not use are zero.
A term of `Instr` has no field its format does not use and its operands are bytes, so every `Instr` is well formed
(log 13); the check bites on the raw operand fields of a word, and the decoder asks it. -/

namespace Sys2Proof

/-- The four formats of R71: which of the operand fields a command uses. -/
inductive Format where
  /-- uses `op` alone -/
  | f0
  /-- uses `op` and `a` -/
  | fa
  /-- uses `op`, `a` and `b` -/
  | fab
  /-- uses all four fields -/
  | fabc
deriving DecidableEq, Repr

/-- The three operand fields of a command word: bits 23:16, 15:8 and 7:0 (R71). -/
structure Fields where
  a : Byte
  b : Byte
  c : Byte
deriving DecidableEq, Repr

/-- R71: "An unused field must be zero." -/
def Format.accepts (f : Format) (w : Fields) : Bool :=
  match f with
  | .f0 => w.a == 0#8 && w.b == 0#8 && w.c == 0#8
  | .fa => w.b == 0#8 && w.c == 0#8
  | .fab => w.c == 0#8
  | .fabc => true

/-- The format of each command (R71, R72). -/
def Instr.format : Instr → Format
  | .nop => .f0
  | .st _ _ => .fab
  | .ld _ => .fa
  | .setv => .f0
  | .chksum _ _ => .fab
  | .chkadd _ _ => .fab
  | .chkvfy _ _ => .fab
  | .chkput _ _ => .fab
  | .bcdenc _ _ => .fab
  | .bcdencr _ _ => .fab
  | .bcddec _ _ _ => .fabc
  | .bcddecr _ _ _ => .fabc
  | .obf _ _ => .fab
  | .deobf _ _ => .fab
  | .ctlx _ => .fa
  | .ctlpk _ _ => .fab

/-- The operand fields of a command, an absent operand being 0 (R71, R77). -/
def Instr.fields : Instr → Fields
  | .nop => ⟨0#8, 0#8, 0#8⟩
  | .st a b => ⟨a, b, 0#8⟩
  | .ld a => ⟨a, 0#8, 0#8⟩
  | .setv => ⟨0#8, 0#8, 0#8⟩
  | .chksum a n => ⟨a, n, 0#8⟩
  | .chkadd a n => ⟨a, n, 0#8⟩
  | .chkvfy a n => ⟨a, n, 0#8⟩
  | .chkput a n => ⟨a, n, 0#8⟩
  | .bcdenc a size => ⟨a, size, 0#8⟩
  | .bcdencr a size => ⟨a, size, 0#8⟩
  | .bcddec a len size => ⟨a, len, size⟩
  | .bcddecr a len size => ⟨a, len, size⟩
  | .obf a n => ⟨a, n, 0#8⟩
  | .deobf a n => ⟨a, n, 0#8⟩
  | .ctlx a => ⟨a, 0#8, 0#8⟩
  | .ctlpk a f => ⟨a, f, 0#8⟩

/-- A command is well formed when its fields are those its format allows. -/
def Instr.WellFormed (i : Instr) : Bool :=
  i.format.accepts i.fields

end Sys2Proof
end

