-- ==== Sys2Proof/Decode.lean ====
section
/-! DEFINITION. The decoder of command words, total and rejecting by name (R71, R72, R74), and after it the encoder. -/

namespace Sys2Proof

/-- Why a word is no command (R74). Either way the block raises `F_ILLEGAL` (R181). -/
inductive DecodeError where
  /-- R74 (a): the opcode stands in no row of the table -/
  | unknownOpcode
  /-- R74 (b): a listed opcode with a non-zero value in a field its format does not use -/
  | unusedFieldSet
deriving DecidableEq, Repr

/-- `op`, bits 31:24 of a command word (R71). -/
def wordOp (w : CmdWord) : Byte := w.extractLsb' 24 8

/-- The operand fields `a`, `b`, `c`, bits 23:16, 15:8 and 7:0 of a command word (R71). -/
def wordFields (w : CmdWord) : Fields :=
  ⟨w.extractLsb' 16 8, w.extractLsb' 8 8, w.extractLsb' 0 8⟩

/-- The opcode map of R72: a row's format, and its command with the fields in their places. -/
def opcodeRow (op : Byte) (w : Fields) : Option (Format × Instr) :=
  match op with
  | 0x00#8 => some (.f0, .nop)
  | 0x01#8 => some (.fab, .st w.a w.b)
  | 0x02#8 => some (.fa, .ld w.a)
  | 0x03#8 => some (.f0, .setv)
  | 0x10#8 => some (.fab, .chksum w.a w.b)
  | 0x11#8 => some (.fab, .chkadd w.a w.b)
  | 0x12#8 => some (.fab, .chkvfy w.a w.b)
  | 0x13#8 => some (.fab, .chkput w.a w.b)
  | 0x20#8 => some (.fab, .bcdenc w.a w.b)
  | 0x21#8 => some (.fab, .bcdencr w.a w.b)
  | 0x22#8 => some (.fabc, .bcddec w.a w.b w.c)
  | 0x23#8 => some (.fabc, .bcddecr w.a w.b w.c)
  | 0x30#8 => some (.fab, .obf w.a w.b)
  | 0x31#8 => some (.fab, .deobf w.a w.b)
  | 0x40#8 => some (.fa, .ctlx w.a)
  | 0x41#8 => some (.fab, .ctlpk w.a w.b)
  | _ => none

/-- The command of a word, or the reason it is illegal (R74). The operand bus never makes a word illegal. -/
def decode (w : CmdWord) : Except DecodeError Instr :=
  match opcodeRow (wordOp w) (wordFields w) with
  | none => .error .unknownOpcode
  | some (f, i) => if f.accepts (wordFields w) then .ok i else .error .unusedFieldSet

/-- What the host asks of the decoder (log 14): the command in the low `nbits` bits of `w`, the bits above them being 0;
there is one instruction length, 32 bits (R70). -/
def decodeTableWord (nbits w : Nat) : Option Instr :=
  if nbits ≤ 32 then (decode (BitVec.ofNat 32 (w % 2 ^ nbits))).toOption else none

/-- The opcode of each command (R72). -/
def opcodeOf : Instr → Byte
  | .nop => 0x00#8
  | .st _ _ => 0x01#8
  | .ld _ => 0x02#8
  | .setv => 0x03#8
  | .chksum _ _ => 0x10#8
  | .chkadd _ _ => 0x11#8
  | .chkvfy _ _ => 0x12#8
  | .chkput _ _ => 0x13#8
  | .bcdenc _ _ => 0x20#8
  | .bcdencr _ _ => 0x21#8
  | .bcddec _ _ _ => 0x22#8
  | .bcddecr _ _ _ => 0x23#8
  | .obf _ _ => 0x30#8
  | .deobf _ _ => 0x31#8
  | .ctlx _ => 0x40#8
  | .ctlpk _ _ => 0x41#8

/-- The word with the given fields, the opcode the most significant (R71; R77 writes it with shifts). -/
def joinWord (op : Byte) (w : Fields) : CmdWord :=
  op ++ w.a ++ w.b ++ w.c

/-- The word of a command (R72, R77). -/
def encode (i : Instr) : CmdWord :=
  joinWord (opcodeOf i) i.fields

/-- The `match` and `mask` columns of the opcode table (R72): a word `w` is this command, with some operands,
iff `w` and-ed with the second gives the first. -/
def matchMask : Instr → CmdWord × CmdWord
  | .nop => (0x00000000#32, 0xFFFFFFFF#32)
  | .st _ _ => (0x01000000#32, 0xFF0000FF#32)
  | .ld _ => (0x02000000#32, 0xFF00FFFF#32)
  | .setv => (0x03000000#32, 0xFFFFFFFF#32)
  | .chksum _ _ => (0x10000000#32, 0xFF0000FF#32)
  | .chkadd _ _ => (0x11000000#32, 0xFF0000FF#32)
  | .chkvfy _ _ => (0x12000000#32, 0xFF0000FF#32)
  | .chkput _ _ => (0x13000000#32, 0xFF0000FF#32)
  | .bcdenc _ _ => (0x20000000#32, 0xFF0000FF#32)
  | .bcdencr _ _ => (0x21000000#32, 0xFF0000FF#32)
  | .bcddec _ _ _ => (0x22000000#32, 0xFF000000#32)
  | .bcddecr _ _ _ => (0x23000000#32, 0xFF000000#32)
  | .obf _ _ => (0x30000000#32, 0xFF0000FF#32)
  | .deobf _ _ => (0x31000000#32, 0xFF0000FF#32)
  | .ctlx _ => (0x40000000#32, 0xFF00FFFF#32)
  | .ctlpk _ _ => (0x41000000#32, 0xFF0000FF#32)

/-- The sixteen rows of R72 in the table's order, each as one of its commands. -/
def tableRows : List Instr :=
  [.nop, .st 0#8 0#8, .ld 0#8, .setv] ++
  [.chksum 0#8 0#8, .chkadd 0#8 0#8, .chkvfy 0#8 0#8, .chkput 0#8 0#8] ++
  [.bcdenc 0#8 0#8, .bcdencr 0#8 0#8, .bcddec 0#8 0#8 0#8, .bcddecr 0#8 0#8 0#8] ++
  [.obf 0#8 0#8, .deobf 0#8 0#8] ++ [.ctlx 0#8, .ctlpk 0#8 0#8]

/-- R72: "a word `w` is the command of a row iff `w & mask = match`". -/
def rowMatches (w : CmdWord) (row : Instr) : Bool :=
  w &&& (matchMask row).2 == (matchMask row).1

end Sys2Proof
end

