-- ==== Sys2Proof/Config.lean ====
section
/-! DEFINITION. The constants the spec fixes (R7, R8) and the one free value it leaves open (`FB_RESET`). -/

namespace Sys2Proof.Config

/-- `FB_SIZE`: bytes in the frame buffer (R8). -/
abbrev fbSize : Nat := 256

/-- `OBF_K`: the obfuscation addend (R7). -/
abbrev obfK : Byte := 0x33#8

/-- `SOF`: the start delimiter, frame offsets 0 and 7 (R7). -/
abbrev sof : Byte := 0x68#8

/-- `EOF_`: the end delimiter (R7). -/
abbrev eof : Byte := 0x16#8

/-- `ADDR_BYTES`: bytes of the slave address field (R7). -/
abbrev addrBytes : Nat := 6

/-- `BROADCAST_ADDR`: all nines, 12 decimal digits (R7). -/
abbrev broadcastAddr : Nat := 999999999999

/-- `ADDR_MAX`: the greatest 48-bit address (R7). -/
abbrev addrMax : Nat := 2 ^ 48 - 1

/-- `DATA_MAX`: the largest data length (R7). -/
abbrev dataMax : Nat := 200

/-- `FRAME_OVERHEAD`: frame length minus data length (R7). -/
abbrev frameOverhead : Nat := 12

/-- `FRAME_MAX`: the longest frame (R7). -/
abbrev frameMax : Nat := 212

/-- `VERIFY_MIN`: the shortest response Verify accepts (R7, conflict C3). -/
abbrev verifyMin : Nat := 10

/-- `FC_MASK`: the function code, bits 4 to 0 of a control byte (R7). -/
abbrev fcMask : Byte := 0x1F#8

/-- `FUP_MASK`: the follow-up flag, bit 5 (R7, conflict C2). -/
abbrev fupMask : Byte := 0x20#8

/-- `ERR_MASK`: the error flag, bit 6 (R7). -/
abbrev errMask : Byte := 0x40#8

/-- `DIR_MASK`: the direction, bit 7, 0 master and 1 slave (R7). -/
abbrev dirMask : Byte := 0x80#8

/-- `VALUE_BITS`: a decoded value enters `V` modulo two to this power (R7, R126). -/
abbrev valueBits : Nat := 64

/-- `FB_RESET`, the free value of the spec (R8, R36, R201; log 1): the byte the frame buffer holds at an index after
the given number of resets and before anything is written there. It has no body, so no proof knows a value of it. -/
opaque fbReset (resets : Nat) (index : Nat) : Byte

end Sys2Proof.Config
end

