-- ==== Sys2Proof/Machine/State.lean ====
section
/-! DEFINITION. The state of the machine: the block's frame buffer and eleven registers (R21), and the host's side of
the command port. Plain data throughout. -/

namespace Sys2Proof.Machine

/-- The bytes of the frame buffer written since the last reset, by index. An index that is not listed holds the free
value `Config.fbReset` (R36, R58; log 1). -/
abbrev Memory := List Host.Cell

/-- The cells lie at rising indices from `lo` on, all inside the buffer. -/
def Memory.wfFrom (lo : Nat) : Memory → Bool
  | [] => true
  | (k, _) :: m => decide (lo ≤ k) && decide (k < Config.fbSize) && Memory.wfFrom (k + 1) m

/-- The canonical form: indices strictly rising and below 256. What an unlisted byte reads as is a free value, which no
entry can be compared with, so a written byte stays listed (log 2). -/
def Memory.wf (m : Memory) : Bool := Memory.wfFrom 0 m

/-- What the host may do to the block (R22, R70, R200). -/
inductive HostMove where
  /-- issue one command transaction: the word and the value on the operand bus (R70) -/
  | command (cmd : CmdWord) (opd : Value)
  /-- reset the block (R200); also a reset that cuts a command short (R201; log 12) -/
  | reset
deriving DecidableEq, Repr

/-- The state. The first twelve fields are the block's, all of R21. The last three are the model's: the input the
block reads, the host's list (R26), and the counter behind the free value of R201. -/
structure State where
  /-- `FB`, the frame buffer (R34, R50) -/
  fb : Memory
  /-- `V`, the value register (R23) -/
  v : Value
  /-- `CK`, the checksum register (R24) -/
  ck : Byte
  /-- `D`, the data register (R25) -/
  d : Byte
  /-- `DIR`, direction of the last extracted control byte (R28) -/
  dir : Bool
  /-- `ERRF`, its error flag (R28) -/
  errf : Bool
  /-- `FUP`, its follow-up flag (R28) -/
  fup : Bool
  /-- `FC`, its function code (R28) -/
  fc : BitVec 5
  /-- `CKOK`, the last CHKVFY found the checksums equal (R27) -/
  ckok : Bool
  /-- `BCDINV`, the last decode met a nibble above 9 (R27) -/
  bcdinv : Bool
  /-- `BCDOVF`, the last BCD command lost high digits or bits (R27) -/
  bcdovf : Bool
  /-- `FAULT`, 0 or the code of the fault that halted the block (R31) -/
  fault : BitVec 4
  /-- the operand bus `opd` of the transaction in progress, an input (R70; log 4) -/
  opd : Value
  /-- what the host will still do, in order (R26, R204; log 3) -/
  host : List HostMove
  /-- how many times the block was reset, the argument of the free value `Config.fbReset` (R201; log 5) -/
  resets : Nat
deriving DecidableEq, Repr

/-- The two faults of the block (R180, U12). The block TAKES a fault as a next state, with `FAULT` written (R183), so
no step of this model ends in `Host.Outcome.fault` (log 8): what ends a run here is the halt that `FAULT` shows. -/
inductive Fault where
  /-- `F_ILLEGAL`, code 1: raised by a command word that matches no row of the table (R181). Safe: the block is halted. -/
  | illegal
  /-- `F_RANGE`, code 2: raised by the ten range commands when the extent leaves the buffer (R182). Safe: the block is
  halted and nothing else is written. -/
  | range
deriving DecidableEq, Repr

/-- Why the model gives a step no meaning. -/
inductive Refusal where
  /-- an instruction without a meaning in the model; no arm of `exec` answers it any more. Safe: nothing is claimed. -/
  | notModelled (mnemonic : String)
deriving DecidableEq, Repr

/-- The machine right after reset (R36, R200): every register 0, the frame buffer unspecified, the host with nothing
issued yet (R202). `opd`, `host` and `resets` are the model's own (log 3, log 4, log 5). -/
def State.reset : State where
  fb := []
  v := 0#64
  ck := 0#8
  d := 0#8
  dir := false
  errf := false
  fup := false
  fc := 0#5
  ckok := false
  bcdinv := false
  bcdovf := false
  fault := 0#4
  opd := 0#64
  host := []
  resets := 0

end Sys2Proof.Machine
end

