-- ==== Sys2Proof/Machine/Ops.lean ====
section
/-! DEFINITION. The named operations over the frame buffer and the registers, taking a fault, the halt, and reset. -/

namespace Sys2Proof.Machine

/-! ### Registers: one named update each (R11: `r <- v`) -/

/-- `V <- x`. -/
def setV (x : Value) (s : State) : State := { s with v := x }

/-- `CK <- x`. -/
def setCk (x : Byte) (s : State) : State := { s with ck := x }

/-- `D <- x`. -/
def setD (x : Byte) (s : State) : State := { s with d := x }

/-- `CKOK <- x`. -/
def setCkok (x : Bool) (s : State) : State := { s with ckok := x }

/-- `BCDINV <- x`. -/
def setBcdinv (x : Bool) (s : State) : State := { s with bcdinv := x }

/-- `BCDOVF <- x`. -/
def setBcdovf (x : Bool) (s : State) : State := { s with bcdovf := x }

/-- The four control-field registers, always written together (R151). -/
def setControl (dir errf fup : Bool) (fc : BitVec 5) (s : State) : State :=
  { s with dir := dir, errf := errf, fup := fup, fc := fc }

/-- `FAULT <- x`. -/
def setFault (x : BitVec 4) (s : State) : State := { s with fault := x }

/-- The frame buffer's cells replaced. -/
def setFb (m : Memory) (s : State) : State := { s with fb := m }

/-- The operand bus carries `x` (R70). -/
def setOpd (x : Value) (s : State) : State := { s with opd := x }

/-- The host's remaining moves are `ms` (R26). -/
def setHost (ms : List HostMove) (s : State) : State := { s with host := ms }

/-! ### The frame buffer -/

/-- The byte listed at an index, if one is. -/
def cellAt : Memory → Nat → Option Byte
  | [], _ => none
  | (k, x) :: m, i => if i = k then some x else cellAt m i

/-- The cells with `x` at index `i`, kept in rising order. -/
def putCell : Memory → Nat → Byte → Memory
  | [], i, x => [(i, x)]
  | (k, y) :: m, i, x =>
    if i < k then (i, x) :: (k, y) :: m
    else if i = k then (i, x) :: m
    else (k, y) :: putCell m i x

/-- What an unlisted index reads as: the free value `FB_RESET` of the last reset (R36, R58, R201; log 1). -/
def unlistedByte (s : State) (i : Nat) : Byte := Config.fbReset s.resets i

/-- `FB[i]` read (R11, R57): no fault, no side effect. -/
def fbRead (s : State) (i : Nat) : Byte := (cellAt s.fb i).getD (unlistedByte s i)

/-- `FB[i] <- x` (R11). -/
def fbWrite (i : Nat) (x : Byte) (s : State) : State := setFb (putCell s.fb i x) s

/-- `MemRead(a, n)`: the `n` bytes from index `a` on (R11). Its callers check the extent first (R52; log 7). -/
def memRead (s : State) (a : Nat) : Nat → List Byte
  | 0 => []
  | n + 1 => fbRead s a :: memRead s (a + 1) n

/-- `MemWrite(a, n, s)`: the bytes at rising indices from `a` on (R11, R54). Its callers check the extent first. -/
def memWrite (a : Nat) : List Byte → State → State
  | [], s => s
  | x :: xs, s => memWrite (a + 1) xs (fbWrite a x s)

/-! ### Faults and the halt -/

/-- The code of a fault (R180). -/
def faultCode : Fault → BitVec 4
  | .illegal => 1#4
  | .range => 2#4

/-- Taking a fault (R183): `FAULT <- code` if `FAULT = 0`, and nothing else. Nothing is saved and control goes nowhere;
there is no return but reset (R185). -/
def raiseFault (f : Fault) (s : State) : State :=
  if s.fault = 0#4 then setFault (faultCode f) s else s

/-- The halt (R184): the effect of a command happens only while `FAULT = 0`; a halted block changes nothing. Every
command completes (R205). -/
def whileRunning (effect : State → State) (s : State) : Host.Outcome State Fault Refusal :=
  .next (if s.fault = 0#4 then effect s else s)

/-- The range rule (R52, R186): the effect happens if the extent, `len` bytes from index `a` on, lies inside the buffer;
else `F_RANGE`, before any state is written. -/
def withinBuffer (a len : Nat) (effect : State → State) (s : State) : State :=
  if a + len ≤ Config.fbSize then effect s else raiseFault .range s

/-! ### Reset -/

/-- A reset of the block (R200, R201): every register 0 and the frame buffer unspecified anew. The host's moves and its
operand bus are not the block's, and stay. -/
def resetBlock (s : State) : State :=
  { State.reset with opd := s.opd, host := s.host, resets := s.resets + 1 }

end Sys2Proof.Machine
end

