-- ==== Sys2Proof/Machine/Flags.lean ====
section
/-! DEFINITION. The flag computations (R27) and the views of the registers the host reads (R22, R29, R30). -/

namespace Sys2Proof.Machine

/-- `CKOK`: the computed checksum equals the stored one (R113). -/
def checksumMatches (computed stored : Byte) : Bool := computed == stored

/-- `BCDOVF` of an encode: the value needs more than `2 * size` digits (R124), on unbounded integers. -/
def encodeOverflows (v : Value) (size : Nat) : Bool := decide (100 ^ size ≤ v.toNat)

/-- `BCDOVF` of a decode: the decimal value is 2^64 or more (R126, R129), before it is reduced. -/
def decodeOverflows (val : Nat) : Bool := decide (2 ^ Config.valueBits ≤ val)

/-- `CTLF`, the control fields as one byte: DIR, ERRF, FUP, then FC (R29). -/
def ctlf (s : State) : Byte :=
  BitVec.ofBool s.dir ++ BitVec.ofBool s.errf ++ BitVec.ofBool s.fup ++ s.fc

/-- `STATUS`: FAULT in bits 7:4, bit 3 reads 0, then BCDOVF, BCDINV, CKOK (R30). -/
def status (s : State) : Byte :=
  s.fault ++ 0#1 ++ BitVec.ofBool s.bcdovf ++ BitVec.ofBool s.bcdinv ++ BitVec.ofBool s.ckok

/-- The registers the host sees, at any time the block is idle and with no effect (R22, R208). -/
structure Outputs where
  v : Value
  ck : Byte
  d : Byte
  ctlf : Byte
  status : Byte
deriving DecidableEq, Repr

/-- What the host reads. -/
def outputs (s : State) : Outputs := ⟨s.v, s.ck, s.d, ctlf s, status s⟩

end Sys2Proof.Machine
end

