-- ==== Sys2Proof/Machine/Operands.lean ====
section
/-! DEFINITION. The operand forms: what each 8-bit field of a command stands for (R73, R104). -/

namespace Sys2Proof.Machine

/-- An index: the effective index is the field itself, absolute (R104). -/
def indexOf (a : Byte) : Nat := a.toNat

/-- A byte count, a length or a BCD size: the unsigned field, 0 allowed (R73). -/
def countOf (n : Byte) : Nat := n.toNat

/-- An immediate byte, as it stands (R73). -/
def immediateOf (b : Byte) : Byte := b

/-- A function code: reduced to five bits before use (R73, R152). -/
def functionCodeOf (b : Byte) : Byte := b &&& Config.fcMask

/-- The 64-bit operand, used whole, by SETV alone (R70, R103). -/
def operandBus (s : State) : Value := s.opd

/-- The extent of a command that touches its range alone: `n` bytes (R52). -/
def plainExtent (n : Byte) : Nat := countOf n

/-- The extent of a command that also touches the byte after its range: `n + 1` bytes (R52). -/
def extentWithChecksum (n : Byte) : Nat := countOf n + 1

/-- The index of the checksum byte, the one after the range (R113, R114). -/
def checksumIndex (a n : Byte) : Nat := indexOf a + countOf n

/-- The bytes of a command's range (R11: `MemRead`). -/
def rangeBytes (s : State) (a n : Byte) : List Byte := memRead s (indexOf a) (countOf n)

end Sys2Proof.Machine
end

