-- ==== Sys2Proof/Machine/Bcd.lean ====
section
/-! DEFINITION. The BCD unit: BCDENC, BCDENCR, BCDDEC, BCDDECR (42_bcd.md). -/

namespace Sys2Proof.Machine

/-- The packed BCD byte of a number below 100: tens in the high nibble, units in the low (R80, R120). -/
def bcdByte (p : Nat) : Byte :=
  (BitVec.ofNat 8 (p / 10) <<< 4) ||| BitVec.ofNat 8 (p % 10)

/-- The loop of R120: `k` more bytes, the next one before those in `out`. -/
def encodeLoop : Nat → Nat → List Byte → List Byte
  | 0, _, out => out
  | k + 1, v, out => encodeLoop k (v / 100) (bcdByte (v % 100) :: out)

/-- `encodeBCD(v, k)`: exactly `k` bytes, the most significant digit pair first (R120). -/
def encodeBCD (v k : Nat) : List Byte := encodeLoop k v []

/-- The high nibble of a byte (R9). -/
def highNibble (x : Byte) : Nat := (x.extractLsb' 4 4).toNat

/-- The low nibble of a byte (R9). -/
def lowNibble (x : Byte) : Nat := (x.extractLsb' 0 4).toNat

/-- Both nibbles are decimal digits (R80). -/
def isBcdByte (x : Byte) : Bool := decide (highNibble x ≤ 9) && decide (lowNibble x ≤ 9)

/-- The accumulation of R122, exact and unbounded (R129). -/
def decodeLoop (val : Nat) : List Byte → Nat
  | [] => val
  | x :: xs => decodeLoop (val * 100 + 10 * highNibble x + lowNibble x) xs

/-- The window of a decode: the last `min(len, k)` bytes of the string (R122, R123). -/
def decodeWindow (bytes : List Byte) (k : Nat) : List Byte :=
  bytes.drop (bytes.length - min bytes.length k)

/-- `decodeBCD(s, k)`: the value and whether it is valid; (0, invalid) on a nibble above 9 in the window (R122). -/
def decodeBCD (bytes : List Byte) (k : Nat) : Nat × Bool :=
  let w := decodeWindow bytes k
  if w.all isBcdByte then (decodeLoop 0 w, true) else (0, false)

/-- What an encode does with the bytes it wrote out: they go to the buffer, `BCDOVF` tells lost digits (R124, R125). -/
def storeEncoded (a size : Byte) (bytes : List Byte) (s : State) : State :=
  setBcdovf (encodeOverflows s.v (countOf size)) (memWrite (indexOf a) bytes s)

/-- What a decode does with its result: `V` and both flags, always (R126). -/
def storeDecoded (r : Nat × Bool) (s : State) : State :=
  if r.2 then setBcdovf (decodeOverflows r.1) (setBcdinv false (setV (BitVec.ofNat 64 r.1) s))
  else setBcdovf false (setBcdinv true (setV 0#64 s))

/-- BCDENC: `V` as `size` packed BCD bytes in table order (R124). -/
def execBcdenc (a size : Byte) (s : State) : Host.Outcome State Fault Refusal :=
  whileRunning (withinBuffer (indexOf a) (plainExtent size) fun s =>
    storeEncoded a size (encodeBCD s.v.toNat (countOf size)) s) s

/-- BCDENCR: the same bytes in wire order (R125). -/
def execBcdencr (a size : Byte) (s : State) : Host.Outcome State Fault Refusal :=
  whileRunning (withinBuffer (indexOf a) (plainExtent size) fun s =>
    storeEncoded a size (encodeBCD s.v.toNat (countOf size)).reverse s) s

/-- BCDDEC: a BCD string in table order into `V` (R126). -/
def execBcddec (a len size : Byte) (s : State) : Host.Outcome State Fault Refusal :=
  whileRunning (withinBuffer (indexOf a) (plainExtent len) fun s =>
    storeDecoded (decodeBCD (rangeBytes s a len) (countOf size)) s) s

/-- BCDDECR: the same of the string reversed, wire order (R127). -/
def execBcddecr (a len size : Byte) (s : State) : Host.Outcome State Fault Refusal :=
  whileRunning (withinBuffer (indexOf a) (plainExtent len) fun s =>
    storeDecoded (decodeBCD (rangeBytes s a len).reverse (countOf size)) s) s

end Sys2Proof.Machine
end

