-- ==== Sys2Proof/Machine/Checksum.lean ====
section
/-! DEFINITION. The checksum unit: CHKSUM, CHKADD, CHKVFY, CHKPUT (41_checksum.md). -/

namespace Sys2Proof.Machine

/-- `sum8(s)`: the sum of the bytes modulo 256, 0 for no bytes (R110). -/
def sum8 (bytes : List Byte) : Byte :=
  BitVec.ofNat 8 (bytes.map BitVec.toNat).sum

/-- CHKSUM: `CK <- sum8(MemRead(a, n))` (R111). -/
def execChksum (a n : Byte) (s : State) : Host.Outcome State Fault Refusal :=
  whileRunning (withinBuffer (indexOf a) (plainExtent n) fun s =>
    setCk (sum8 (rangeBytes s a n)) s) s

/-- CHKADD: `CK <- (CK + sum8(MemRead(a, n))) mod 256` (R112). -/
def execChkadd (a n : Byte) (s : State) : Host.Outcome State Fault Refusal :=
  whileRunning (withinBuffer (indexOf a) (plainExtent n) fun s =>
    setCk (s.ck + sum8 (rangeBytes s a n)) s) s

/-- CHKVFY: `CK` gets the computed sum, `CKOK` whether it equals the byte after the range (R113). -/
def execChkvfy (a n : Byte) (s : State) : Host.Outcome State Fault Refusal :=
  whileRunning (withinBuffer (indexOf a) (extentWithChecksum n) fun s =>
    let sum := sum8 (rangeBytes s a n)
    setCkok (checksumMatches sum (fbRead s (checksumIndex a n))) (setCk sum s)) s

/-- CHKPUT: `CK` and the byte after the range get the computed sum (R114). -/
def execChkput (a n : Byte) (s : State) : Host.Outcome State Fault Refusal :=
  whileRunning (withinBuffer (indexOf a) (extentWithChecksum n) fun s =>
    let sum := sum8 (rangeBytes s a n)
    fbWrite (checksumIndex a n) sum (setCk sum s)) s

end Sys2Proof.Machine
end

