-- ==== Sys2Proof/Machine/ControlByte.lean ====
section
/-! DEFINITION. The control-byte unit: CTLX, CTLPK (44_control_byte.md). -/

namespace Sys2Proof.Machine

/-- `dir(x)`, bit 7 of a control byte: 0 master, 1 slave (R150). -/
def controlDir (x : Byte) : Bool := x.getLsbD 7

/-- `err(x)`, bit 6 (R150). -/
def controlErr (x : Byte) : Bool := x.getLsbD 6

/-- `fup(x)`, bit 5 (R150, conflict C2). -/
def controlFup (x : Byte) : Bool := x.getLsbD 5

/-- `fc(x)`, bits 4 to 0 (R150). -/
def controlFc (x : Byte) : BitVec 5 := x.extractLsb' 0 5

/-- CTLX: the four fields of `FB[a]`, all four always (R151). -/
def execCtlx (a : Byte) (s : State) : Host.Outcome State Fault Refusal :=
  whileRunning (fun s =>
    let x := fbRead s (indexOf a)
    setControl (controlDir x) (controlErr x) (controlFup x) (controlFc x) s) s

/-- CTLPK: `FB[a] <- b & 0x1F`, the master's control byte (R152). -/
def execCtlpk (a f : Byte) (s : State) : Host.Outcome State Fault Refusal :=
  whileRunning (fbWrite (indexOf a) (functionCodeOf f)) s

end Sys2Proof.Machine
end

