-- ==== Sys2Proof/Machine/HostAccess.lean ====
section
/-! DEFINITION. Host access commands: NOP, ST, LD, SETV (40_host_access.md). -/

namespace Sys2Proof.Machine

/-- NOP does nothing (R100). -/
def execNop (s : State) : Host.Outcome State Fault Refusal :=
  whileRunning id s

/-- ST: `FB[a] <- b` (R101). Every index is in range. -/
def execSt (a b : Byte) (s : State) : Host.Outcome State Fault Refusal :=
  whileRunning (fbWrite (indexOf a) (immediateOf b)) s

/-- LD: `D <- FB[a]` (R102). -/
def execLd (a : Byte) (s : State) : Host.Outcome State Fault Refusal :=
  whileRunning (fun s => setD (fbRead s (indexOf a)) s) s

/-- SETV: `V <- opd` (R103). -/
def execSetv (s : State) : Host.Outcome State Fault Refusal :=
  whileRunning (fun s => setV (operandBus s) s) s

end Sys2Proof.Machine
end

