-- ==== Sys2Proof/Machine/Obfuscation.lean ====
section
/-! DEFINITION. The obfuscation engine: OBF, DEOBF (43_obfuscation.md). Addition of 0x33, not an exclusive OR (C1). -/

namespace Sys2Proof.Machine

/-- `obf(x) = (x + 0x33) mod 256` (R140). -/
def obf (x : Byte) : Byte := x + Config.obfK

/-- `deobf(x) = (x - 0x33) mod 256` (R140). -/
def deobf (x : Byte) : Byte := x - Config.obfK

/-- Each byte of the range replaced by its image, in place and independently (R141, R142, R143). -/
def mapRange (f : Byte → Byte) (a n : Byte) (s : State) : State :=
  memWrite (indexOf a) ((rangeBytes s a n).map f) s

/-- OBF: 0x33 added to each byte of the range (R141). -/
def execObf (a n : Byte) (s : State) : Host.Outcome State Fault Refusal :=
  whileRunning (withinBuffer (indexOf a) (plainExtent n) (mapRange obf a n)) s

/-- DEOBF: 0x33 subtracted from each byte of the range (R142). -/
def execDeobf (a n : Byte) (s : State) : Host.Outcome State Fault Refusal :=
  whileRunning (withinBuffer (indexOf a) (plainExtent n) (mapRange deobf a n)) s

end Sys2Proof.Machine
end

