-- ==== Sys2Proof/Machine/Dispatch.lean ====
section
/-! DEFINITION. One arm per command: the direct call of its meaning. -/

namespace Sys2Proof.Machine

-- The commands in the opcode table's order (R72).
def exec (i : Instr) (s : State) : Host.Outcome State Fault Refusal :=
  match i with
  | .nop => Sys2Proof.Machine.execNop s
  | .st a b => Sys2Proof.Machine.execSt a b s
  | .ld a => Sys2Proof.Machine.execLd a s
  | .setv => Sys2Proof.Machine.execSetv s
  | .chksum a n => Sys2Proof.Machine.execChksum a n s
  | .chkadd a n => Sys2Proof.Machine.execChkadd a n s
  | .chkvfy a n => Sys2Proof.Machine.execChkvfy a n s
  | .chkput a n => Sys2Proof.Machine.execChkput a n s
  | .bcdenc a size => Sys2Proof.Machine.execBcdenc a size s
  | .bcdencr a size => Sys2Proof.Machine.execBcdencr a size s
  | .bcddec a len size => Sys2Proof.Machine.execBcddec a len size s
  | .bcddecr a len size => Sys2Proof.Machine.execBcddecr a len size s
  | .obf a n => Sys2Proof.Machine.execObf a n s
  | .deobf a n => Sys2Proof.Machine.execDeobf a n s
  | .ctlx a => Sys2Proof.Machine.execCtlx a s
  | .ctlpk a f => Sys2Proof.Machine.execCtlpk a f s

end Sys2Proof.Machine
end

