-- ==== Sys2Proof/Machine/Transaction.lean ====
section
/-! DEFINITION. One move of the host and the block's whole answer to it: a command transaction (R70, R186) or a
reset (R200). -/

namespace Sys2Proof.Machine

/-- A command word met by the block (R186): the word is decoded, an illegal one raises `F_ILLEGAL`, a legal one runs.
A halted block changes nothing either way: `raiseFault` and every meaning see to it (R184). -/
def runWord (cmd : CmdWord) (s : State) : Host.Outcome State Fault Refusal :=
  match decode cmd with
  | .error _ => .next (raiseFault .illegal s)
  | .ok i => exec i s

/-- The block's answer to one move of the host. -/
def takeMove (m : HostMove) (s : State) : Host.Outcome State Fault Refusal :=
  match m with
  | .command cmd opd => runWord cmd (setOpd opd s)
  | .reset => .next (resetBlock s)

/-- The next move of the host's list (R26, R59): it is taken off the list whatever the block does with it. With no move
left the block is idle and nothing changes (R20, R202; log 3). -/
def nextMove (s : State) : Host.Outcome State Fault Refusal :=
  match s.host with
  | [] => .next s
  | m :: ms => takeMove m (setHost ms s)

/-- A list of moves made one after the other, each after the one before it has completed (R204). -/
def takeMoves : List HostMove → State → Host.Outcome State Fault Refusal
  | [], s => .next s
  | m :: ms, s =>
    match takeMove m s with
    | .next t => takeMoves ms t
    | .fault r => .fault r
    | .refused r => .refused r

/-- A program, a list of commands each with its operand (R26, R204), as moves of the host: no reset among them. -/
def commandMoves (program : List (CmdWord × Value)) : List HostMove :=
  program.map fun c => .command c.1 c.2

/-- The low `nbits` bits of `w` as a command word (log 14). -/
def tableWord (nbits w : Nat) : CmdWord := BitVec.ofNat 32 (w % 2 ^ nbits)

/-- The host issues the given word next, the operand bus carrying what it carries now (log 3). -/
def placeWord (nbits w : Nat) (s : State) : State :=
  setHost (.command (tableWord nbits w) s.opd :: s.host) s

end Sys2Proof.Machine
end

