-- ==== Sys2Proof/Machine/Step.lean ====
section
/-! DEFINITION. One step of the machine. -/

namespace Sys2Proof.Machine

/-- One step: the host's next move and the block's whole answer to it (R57, R59). -/
def step (s : State) : Host.Outcome State Fault Refusal := nextMove s

/-- The state in which the host's next move is to issue the given word (log 3). -/
def State.withFetchWord (s : State) (nbits w : Nat) : State := placeWord nbits w s

end Sys2Proof.Machine
end

