-- ==== Sys2Proof/Machine/Frame.lean ====
section
/-! DEFINITION. The reference compositions Encode, Decode and Verify as pure functions on byte sequences
(45_frame_sequences.md, R160 to R168). They are the host's, not commands of the block (D19). -/

namespace Sys2Proof.Machine

/-- The outcomes of the host's procedures that are errors (R188). None is a block fault. -/
inductive FrameError where
  /-- more than 200 data bytes (R161) -/
  | validation
  /-- a length the layout does not allow (R163, R167) -/
  | framing
  /-- the stored checksum is not the computed one (R163) -/
  | checksum
  /-- the response's address bytes are not the request's (R167) -/
  | addressMismatch
  /-- the responder signals an error: the function code and the first data byte (R166) -/
  | protocolException (functionCode : Byte) (exceptionCode : Byte)
deriving DecidableEq, Repr

/-- R160. The function code is a byte here, of which Encode uses the low five bits and Decode gives no others (log 15). -/
structure FramePayload where
  hasFollowUpData : Bool
  functionCode : Byte
  data : List Byte
deriving DecidableEq, Repr

/-- The address field of a frame: six BCD bytes in wire order (R84, R130). -/
def addressField (addr : BitVec 48) : List Byte :=
  (encodeBCD addr.toNat Config.addrBytes).reverse

/-- Offsets 0 to 9 of a frame with `n` data bytes (R85, R161). -/
def frameHead (addr : BitVec 48) (functionCode : Byte) (n : Nat) : List Byte :=
  [Config.sof] ++ addressField addr ++ [Config.sof, functionCodeOf functionCode, BitVec.ofNat 8 n]

/-- `FrameEncode(addr, payload)` (R161). The follow-up flag of the payload is not used (conflict C4). -/
def frameEncode (addr : BitVec 48) (p : FramePayload) : Except FrameError (List Byte) :=
  if Config.dataMax < p.data.length then .error .validation
  else
    let head := frameHead addr p.functionCode p.data.length
    let body := p.data.map obf
    .ok (head ++ body ++ [sum8 (head ++ body), Config.eof])

/-- The byte of a sequence at an offset inside it. -/
def byteAt (raw : List Byte) (k : Nat) : Byte := raw.getD k 0#8

/-- The bytes `raw[lo .. hi)` (R10). -/
def slice (raw : List Byte) (lo hi : Nat) : List Byte := (raw.take hi).drop lo

/-- Steps 4 to 7 of R163: what a frame with a good checksum and length stands for. -/
def decodedPayload (raw : List Byte) : Except FrameError FramePayload :=
  let c := byteAt raw 8
  let data := (slice raw 10 (raw.length - 2)).map deobf
  let fc := functionCodeOf c
  match c &&& Config.errMask != 0#8, data with
  | true, x :: _ => .error (.protocolException fc x)
  | _, _ => .ok { hasFollowUpData := c &&& Config.fupMask != 0#8, functionCode := fc, data := data }

/-- `FrameDecode(raw)` (R163). It checks the length, the checksum and the length byte, and nothing else (R165). -/
def frameDecode (raw : List Byte) : Except FrameError FramePayload :=
  if raw.length < Config.frameOverhead || Config.frameMax < raw.length then .error .framing
  else if sum8 (slice raw 0 (raw.length - 2)) != byteAt raw (raw.length - 2) then .error .checksum
  else if (byteAt raw 9).toNat != raw.length - Config.frameOverhead then .error .framing
  else decodedPayload raw

/-- `FrameVerify(req, resp)` (R167): none for a request shorter than 7 bytes, to which the spec gives no meaning
(U15; log 11). -/
def frameVerify (req resp : List Byte) : Option (Except FrameError Unit) :=
  if req.length < 7 then none
  else if resp.length < Config.verifyMin then some (.error .framing)
  else if slice resp 1 7 != slice req 1 7 then some (.error .addressMismatch)
  else some (.ok ())

/-- The receive path (R168): Verify first, then Decode, an error of either passed on unchanged. None where Verify has no
meaning (log 11). -/
def frameReceive (req resp : List Byte) : Option (Except FrameError FramePayload) :=
  match frameVerify req resp with
  | none => none
  | some (.error e) => some (.error e)
  | some (.ok ()) => some (frameDecode resp)

end Sys2Proof.Machine
end

