-- ==== Sys2Proof/Machine/HostProcedures.lean ====
section
/-! DEFINITION. The reference compositions as the sequences the host runs on the block (R162, R164, R168): commands
issued one at a time, the host's decisions taken on the registers it reads between them. -/

namespace Sys2Proof.Machine

/-- The transaction of a command that does not use the operand bus (R70). -/
def issue (i : Instr) : HostMove := .command (encode i) 0#64

/-- The transaction `SETV value` (R103). -/
def issueSetv (value : Value) : HostMove := .command (encode .setv) value

/-- `STS a, [bytes]` (R78): one ST per byte, at rising indices. -/
def storeString (a : Nat) : List Byte → List HostMove
  | [] => []
  | x :: xs => issue (.st (BitVec.ofNat 8 a) x) :: storeString (a + 1) xs

/-- The host's result of a procedure on the block: the block's state after it, and what the host concludes. -/
abbrev HostResult (α : Type) := Host.Outcome (State × α) Fault Refusal

/-- The host makes some moves and goes on in the state they lead to. -/
def afterMoves {α : Type} (ms : List HostMove) (s : State) (next : State → HostResult α) : HostResult α :=
  match takeMoves ms s with
  | .next t => next t
  | .fault r => .fault r
  | .refused r => .refused r

/-- The host reads `n` bytes from index `a` on, each with an LD and a look at `D` (R22, R164). -/
def readBytes {α : Type} (a : Nat) : Nat → State → (State → List Byte → HostResult α) → HostResult α
  | 0, s, next => next s []
  | n + 1, s, next =>
    afterMoves [issue (.ld (BitVec.ofNat 8 a))] s fun t =>
      readBytes (a + 1) n t fun u bytes => next u (t.d :: bytes)

/-- The commands of the Encode sequence (R162), the frame at base 0. -/
def encodeSequence (addr : BitVec 48) (functionCode : Byte) (data : List Byte) : List HostMove :=
  let n := data.length
  [issue (.st 0#8 Config.sof), issueSetv (addr.setWidth 64), issue (.bcdencr 1#8 6#8), issue (.st 7#8 Config.sof),
   issue (.ctlpk 8#8 functionCode), issue (.st 9#8 (BitVec.ofNat 8 n))] ++
  storeString 10 data ++
  [issue (.obf 10#8 (BitVec.ofNat 8 n)), issue (.chkput 0#8 (BitVec.ofNat 8 (10 + n))),
   issue (.st (BitVec.ofNat 8 (11 + n)) Config.eof)]

/-- The Encode sequence with the host's check of the data length before it (R162). -/
def hostEncode (addr : BitVec 48) (p : FramePayload) (s : State) : HostResult (Except FrameError Unit) :=
  if Config.dataMax < p.data.length then .next (s, .error .validation)
  else afterMoves (encodeSequence addr p.functionCode p.data) s fun t => .next (t, .ok ())

/-- The host's length test before Decode (R164): a frame has 12 to 212 bytes. -/
def decodableLength (len : Nat) : Bool := !(len < Config.frameOverhead || Config.frameMax < len)

/-- The Decode sequence from CHKVFY on (R164): a frame of `len` bytes lies at base 0, the host decides on CKOK, D, ERRF. -/
def decodeStored (len : Nat) (s : State) : HostResult (Except FrameError FramePayload) :=
  afterMoves [issue (.chkvfy 0#8 (BitVec.ofNat 8 (len - 2)))] s fun s1 =>
  if !s1.ckok then .next (s1, .error .checksum)
  else afterMoves [issue (.ld 9#8)] s1 fun s2 =>
  if s2.d.toNat != len - 12 then .next (s2, .error .framing)
  else afterMoves [issue (.ctlx 8#8), issue (.deobf 10#8 (BitVec.ofNat 8 (len - 12)))] s2 fun s3 =>
  readBytes 10 (len - 12) s3 fun s4 data =>
  match s4.errf, data with
  | true, x :: _ => .next (s4, .error (.protocolException (s4.fc.setWidth 8) x))
  | _, _ => .next (s4, .ok { hasFollowUpData := s4.fup, functionCode := s4.fc.setWidth 8, data := data })

/-- The Decode sequence (R164): the length test, the received frame stored at base 0, then `decodeStored`. -/
def hostDecode (raw : List Byte) (s : State) : HostResult (Except FrameError FramePayload) :=
  if decodableLength raw.length then afterMoves (storeString 0 raw) s (decodeStored raw.length)
  else .next (s, .error .framing)

/-- LD 1 to LD 6, each byte compared with the request's (R168). -/
def compareAddress (expected : List Byte) (s : State) : HostResult (Except FrameError Unit) :=
  readBytes 1 6 s fun t bytes => .next (t, if bytes != expected then .error .addressMismatch else .ok ())

/-- Verify on the block (R168): the response, already stored at base 0 and `len` bytes long, its address bytes compared
with those of the request, which the host kept. None for a request shorter than 7 bytes (log 11). -/
def hostVerify (req : List Byte) (len : Nat) (s : State) : Option (HostResult (Except FrameError Unit)) :=
  if req.length < 7 then none
  else if len < Config.verifyMin then some (.next (s, .error .framing))
  else some (compareAddress (slice req 1 7) s)

/-- Verify with the request's address bytes regenerated (R168): `SETV addr` and `BCDENCR q, 6` at a spare place `q`, the
six bytes read back, then compared. That `q` is spare, behind the response and inside the buffer, is the host's business
(R206 item 6). -/
def hostVerifyRegenerated (addr : BitVec 48) (q : Byte) (len : Nat) (s : State) :
    HostResult (Except FrameError Unit) :=
  if len < Config.verifyMin then .next (s, .error .framing)
  else afterMoves [issueSetv (addr.setWidth 64), issue (.bcdencr q 6#8)] s fun t =>
    readBytes q.toNat 6 t fun u expected => compareAddress expected u

/-- What follows Verify on the receive path (R168): its error unchanged, or else Decode of the stored response, with the
length test of R164 before it. -/
def decodeIfVerified (len : Nat) (verified : HostResult (Except FrameError Unit)) :
    HostResult (Except FrameError FramePayload) :=
  match verified with
  | .next (t, .error e) => .next (t, .error e)
  | .next (t, .ok ()) => if decodableLength len then decodeStored len t else .next (t, .error .framing)
  | .fault r => .fault r
  | .refused r => .refused r

/-- The receive path on the block (R168), the response stored at base 0 and `len` bytes long: Verify against the request
the host kept, then Decode. -/
def hostReceive (req : List Byte) (len : Nat) (s : State) : Option (HostResult (Except FrameError FramePayload)) :=
  (hostVerify req len s).map (decodeIfVerified len)

/-- The receive path with the request's address regenerated (R168). -/
def hostReceiveRegenerated (addr : BitVec 48) (q : Byte) (len : Nat) (s : State) :
    HostResult (Except FrameError FramePayload) :=
  decodeIfVerified len (hostVerifyRegenerated addr q len s)

end Sys2Proof.Machine
end

