-- ==== Sys2Proof/Machine/Assembler.lean ====
section
/-! DEFINITION. The text form of commands (R77) and the pseudo-instruction STS (R78): a line of text to the host's moves.
What R77 leaves open of white space and letters is log 16. -/

namespace Sys2Proof.Machine

/-- A character that separates words. -/
def isBlank (c : Char) : Bool := c == ' ' || c == '\t'

/-- Blanks taken off the front. -/
def dropBlanks : List Char → List Char
  | [] => []
  | c :: cs => if isBlank c then dropBlanks cs else c :: cs

/-- Blanks taken off both ends. -/
def trimBlanks (cs : List Char) : List Char := (dropBlanks (dropBlanks cs).reverse).reverse

/-- A comment runs from `;` to the end of the line (R77). -/
def stripComment : List Char → List Char
  | [] => []
  | c :: cs => if c == ';' then [] else c :: stripComment cs

/-- The pieces between the characters that satisfy `p`; always at least one, perhaps empty. -/
def splitAtChar (p : Char → Bool) : List Char → List (List Char)
  | [] => [[]]
  | c :: cs =>
    if p c then [] :: splitAtChar p cs
    else match splitAtChar p cs with
      | [] => [[c]]
      | w :: ws => (c :: w) :: ws

/-- The value of a digit in bases up to 16. -/
def digitValue (c : Char) : Option Nat :=
  let n := c.toNat
  if 48 ≤ n ∧ n ≤ 57 then some (n - 48)
  else if 65 ≤ n ∧ n ≤ 70 then some (n - 55)
  else if 97 ≤ n ∧ n ≤ 102 then some (n - 87)
  else none

/-- The digits of a number in a base, after the value read so far. -/
def digitsValue (base : Nat) : Nat → List Char → Option Nat
  | acc, [] => some acc
  | acc, c :: cs =>
    match digitValue c with
    | some k => if k < base then digitsValue base (acc * base + k) cs else none
    | none => none

/-- A number, decimal or `0x` hexadecimal (R77). -/
def numberOf : List Char → Option Nat
  | [] => none
  | '0' :: 'x' :: c :: cs => digitsValue 16 0 (c :: cs)
  | c :: cs => digitsValue 10 0 (c :: cs)

/-- An operand: a number that fits 8 bits (R77). -/
def byteOperand (cs : List Char) : Option Byte :=
  match numberOf (trimBlanks cs) with
  | some n => if n < 256 then some (BitVec.ofNat 8 n) else none
  | none => none

/-- A byte of a string operand, two hex digits without `0x` (R78). -/
def stringByte : List Char → Option Byte
  | [h, l] => (digitsValue 16 0 [h, l]).map (BitVec.ofNat 8)
  | _ => none

/-- All of a list's images, if every one of them exists. -/
def allSome {α β : Type} (f : α → Option β) : List α → Option (List β)
  | [] => some []
  | x :: xs =>
    match f x, allSome f xs with
    | some y, some ys => some (y :: ys)
    | _, _ => none

/-- A mnemonic with its operands in field order (R72, R77). -/
def commandOf (mnemonic : List Char) (operands : List Byte) : Option Instr :=
  if mnemonic == "NOP".toList then (match operands with | [] => some .nop | _ => none)
  else if mnemonic == "ST".toList then (match operands with | [a, b] => some (.st a b) | _ => none)
  else if mnemonic == "LD".toList then (match operands with | [a] => some (.ld a) | _ => none)
  else if mnemonic == "CHKSUM".toList then (match operands with | [a, n] => some (.chksum a n) | _ => none)
  else if mnemonic == "CHKADD".toList then (match operands with | [a, n] => some (.chkadd a n) | _ => none)
  else if mnemonic == "CHKVFY".toList then (match operands with | [a, n] => some (.chkvfy a n) | _ => none)
  else if mnemonic == "CHKPUT".toList then (match operands with | [a, n] => some (.chkput a n) | _ => none)
  else if mnemonic == "BCDENC".toList then (match operands with | [a, k] => some (.bcdenc a k) | _ => none)
  else if mnemonic == "BCDENCR".toList then (match operands with | [a, k] => some (.bcdencr a k) | _ => none)
  else if mnemonic == "BCDDEC".toList then (match operands with | [a, n, k] => some (.bcddec a n k) | _ => none)
  else if mnemonic == "BCDDECR".toList then (match operands with | [a, n, k] => some (.bcddecr a n k) | _ => none)
  else if mnemonic == "OBF".toList then (match operands with | [a, n] => some (.obf a n) | _ => none)
  else if mnemonic == "DEOBF".toList then (match operands with | [a, n] => some (.deobf a n) | _ => none)
  else if mnemonic == "CTLX".toList then (match operands with | [a] => some (.ctlx a) | _ => none)
  else if mnemonic == "CTLPK".toList then (match operands with | [a, f] => some (.ctlpk a f) | _ => none)
  else none

/-- `SETV value`: a number that fits the 64-bit operand bus, with the word 0x03000000 (R77). -/
def setvLine (rest : List Char) : Option (List HostMove) :=
  match numberOf (trimBlanks rest) with
  | some n => if n < 2 ^ 64 then some [issueSetv (BitVec.ofNat 64 n)] else none
  | none => none

/-- The bytes between the brackets of a string operand (R78). -/
def bracketBytes (cs : List Char) : Option (List Byte) :=
  match trimBlanks cs with
  | '[' :: inner =>
    match inner.reverse with
    | ']' :: rev => allSome stringByte ((splitAtChar isBlank rev.reverse).filter (fun w => !w.isEmpty))
    | _ => none
  | _ => none

/-- `STS a, [b0 b1 ...]` with `a + k <= 256` (R78): its ST commands. -/
def stsLine (rest : List Char) : Option (List HostMove) :=
  match splitAtChar (· == ',') rest with
  | [index, string] =>
    match byteOperand index, bracketBytes string with
    | some a, some bytes => if a.toNat + bytes.length ≤ 256 then some (storeString a.toNat bytes) else none
    | _, _ => none
  | _ => none

/-- The operands of a line, separated by commas (R77). -/
def operandsOf (rest : List Char) : Option (List Byte) :=
  match trimBlanks rest with
  | [] => some []
  | c :: cs => allSome byteOperand (splitAtChar (· == ',') (c :: cs))

/-- The moves a line of a program stands for: none for an empty line and for a `host:` line, which is no command (R78). -/
def assembleLine (line : List Char) : Option (List HostMove) :=
  let text := trimBlanks (stripComment line)
  let word := text.takeWhile (fun c => !isBlank c)
  let rest := text.dropWhile (fun c => !isBlank c)
  if text.isEmpty || "host:".toList.isPrefixOf text then some []
  else if word == "SETV".toList then setvLine rest
  else if word == "STS".toList then stsLine rest
  else match operandsOf rest with
    | some operands => (commandOf word operands).map (fun i => [issue i])
    | none => none

/-- The moves of a program, line by line in order; none if a line is not of the form (R77). -/
def assemble (lines : List String) : Option (List HostMove) :=
  (allSome (fun (l : String) => assembleLine l.toList) lines).map List.flatten

end Sys2Proof.Machine
end

