-- ==== Sys2Proof/Safety.lean ====
section
/-! DEFINITION. What counts as a good state and a successful run (R31, R38, R204), and the terms the statements use:
the tables of the spec written out once more, apart from the meanings. -/

namespace Sys2Proof.Machine

/-- The part of R38 that is not held by the fields' types: FAULT is 0, 1 or 2, and the frame buffer's cells are in their
canonical form, all inside the buffer. -/
def State.Good (s : State) : Prop := s.fault.toNat ≤ 2 ∧ Memory.wf s.fb = true

/-- R204: a run is a reset and then the program, a finite list of commands, in order. A program holds no reset: what a
host does that resets the block again (R200) is another run, and longer lists of moves are `takeMoves` (log 3). -/
def runFromReset (program : List (CmdWord × Value)) (s : State) : Host.Outcome State Fault Refusal :=
  takeMoves (.reset :: commandMoves program) s

/-- R204: a run is successful iff FAULT = 0 in its final state. -/
def Successful (o : Host.Outcome State Fault Refusal) : Prop := ∃ t, o = .next t ∧ t.fault = 0#4

/-- The two states' frame buffers read alike at every index. -/
def SameMemory (s t : State) : Prop := ∀ k, fbRead t k = fbRead s k

/-- The two states' frame buffers read alike at every index outside `[lo, hi)`. -/
def SameMemoryOutside (lo hi : Nat) (s t : State) : Prop := ∀ k, k < lo ∨ hi ≤ k → fbRead t k = fbRead s k

/-- A command word as R77 writes it: `(op << 24) | (a << 16) | (b << 8) | c`. -/
def shiftedWord (op a b c : Byte) : CmdWord :=
  (op.setWidth 32 <<< 24) ||| (a.setWidth 32 <<< 16) ||| (b.setWidth 32 <<< 8) ||| c.setWidth 32

/-- One past the last index the range rule looks at (R52). -/
def extentEnd : Instr → Nat
  | .nop => 0
  | .st a _ => a.toNat + 1
  | .ld a => a.toNat + 1
  | .setv => 0
  | .chksum a n => a.toNat + n.toNat
  | .chkadd a n => a.toNat + n.toNat
  | .chkvfy a n => a.toNat + n.toNat + 1
  | .chkput a n => a.toNat + n.toNat + 1
  | .bcdenc a size => a.toNat + size.toNat
  | .bcdencr a size => a.toNat + size.toNat
  | .bcddec a len _ => a.toNat + len.toNat
  | .bcddecr a len _ => a.toNat + len.toNat
  | .obf a n => a.toNat + n.toNat
  | .deobf a n => a.toNat + n.toNat
  | .ctlx a => a.toNat + 1
  | .ctlpk a _ => a.toNat + 1

/-- The table of R51, column Writes: the command writes `FB[k]`. -/
def writesAt (i : Instr) (k : Nat) : Prop :=
  match i with
  | .nop => False
  | .st a _ => k = a.toNat
  | .ld _ => False
  | .setv => False
  | .chksum _ _ => False
  | .chkadd _ _ => False
  | .chkvfy _ _ => False
  | .chkput a n => k = a.toNat + n.toNat
  | .bcdenc a size => a.toNat ≤ k ∧ k < a.toNat + size.toNat
  | .bcdencr a size => a.toNat ≤ k ∧ k < a.toNat + size.toNat
  | .bcddec _ _ _ => False
  | .bcddecr _ _ _ => False
  | .obf a n => a.toNat ≤ k ∧ k < a.toNat + n.toNat
  | .deobf a n => a.toNat ≤ k ∧ k < a.toNat + n.toNat
  | .ctlx _ => False
  | .ctlpk a _ => k = a.toNat

/-- The table of R51, column Reads: the command's result depends on `FB[k]`. Of a decode only the window's bytes do
(R51, R123, R127). -/
def readsAt (i : Instr) (k : Nat) : Prop :=
  match i with
  | .nop => False
  | .st _ _ => False
  | .ld a => k = a.toNat
  | .setv => False
  | .chksum a n => a.toNat ≤ k ∧ k < a.toNat + n.toNat
  | .chkadd a n => a.toNat ≤ k ∧ k < a.toNat + n.toNat
  | .chkvfy a n => a.toNat ≤ k ∧ k ≤ a.toNat + n.toNat
  | .chkput a n => a.toNat ≤ k ∧ k < a.toNat + n.toNat
  | .bcdenc _ _ => False
  | .bcdencr _ _ => False
  | .bcddec a len size => a.toNat + (len.toNat - min len.toNat size.toNat) ≤ k ∧ k < a.toNat + len.toNat
  | .bcddecr a len size => a.toNat ≤ k ∧ k < a.toNat + min len.toNat size.toNat
  | .obf a n => a.toNat ≤ k ∧ k < a.toNat + n.toNat
  | .deobf a n => a.toNat ≤ k ∧ k < a.toNat + n.toNat
  | .ctlx a => k = a.toNat
  | .ctlpk _ _ => False

/-- The sum of the bytes `FB[a .. a+n)` as a number (R110). -/
def rangeSum (s : State) (a n : Nat) : Nat := (Finset.range n).sum fun j => (fbRead s (a + j)).toNat

/-- The number a byte stands for by its two digits: `10 * x[7:4] + x[3:0]` (R81). -/
def pairValue (x : Byte) : Nat := 10 * (x.toNat / 16) + x.toNat % 16

/-- The number `FB[a .. a+m)` stands for in table order (R81). -/
def tableValue (s : State) (a m : Nat) : Nat :=
  (Finset.range m).sum fun j => pairValue (fbRead s (a + j)) * 100 ^ (m - 1 - j)

/-- The number `FB[a .. a+m)` stands for in wire order (R81). -/
def wireValue (s : State) (a m : Nat) : Nat :=
  (Finset.range m).sum fun j => pairValue (fbRead s (a + j)) * 100 ^ j

/-- Every byte of `FB[lo .. hi)` is a BCD byte: neither nibble is above 9 (R80). -/
def AllBcd (s : State) (lo hi : Nat) : Prop :=
  ∀ k, lo ≤ k → k < hi → (fbRead s k).toNat / 16 ≤ 9 ∧ (fbRead s k).toNat % 16 ≤ 9

end Sys2Proof.Machine
end

