-- ==== Sys2Proof/Certificates/Slice0/Obligations.lean ====
section
/-! DEFINITION. The statements about the machine, one for the provers each. -/

open Sys2Proof Sys2Proof.Machine

/-! ### Encoding -/

/-- R71, R72, R73: decoding the word of a command gives the command back, every operand at every value. -/
def Obligations.DecodeEncodeRoundTrip : Prop :=
  ∀ i : Instr, i.WellFormed = true → decode (encode i) = .ok i

/-- R72, R74, R75: a legal word is the word of the command it decodes to; no bit of it is ignored. -/
def Obligations.EncodeDecodeRoundTrip : Prop :=
  ∀ (w : CmdWord) (i : Instr), decode w = .ok i → i.WellFormed = true ∧ encode i = w

/-- R74: a word is the command of the row it matches; a word that matches none raises F_ILLEGAL, whatever the operand,
and changes nothing else of the block. The list of moves and the operand bus are the model's fields (log 3, log 4). -/
def Obligations.WordsOutsideTheTableAreIllegal : Prop :=
  ∀ w : CmdWord,
    (∀ row ∈ tableRows, rowMatches w row = true → ∃ i, decode w = .ok i ∧ matchMask i = matchMask row) ∧
    ((∀ row ∈ tableRows, rowMatches w row = false) →
      ∀ (opd : Value) (rest : List HostMove) (s : State), s.fault = 0#4 → s.host = .command w opd :: rest →
        step s = .next { s with host := rest, opd := opd, fault := 1#4 })

/-- R72: "The rows are mutually exclusive". -/
def Obligations.TableRowsAreExclusive : Prop :=
  ∀ (w : CmdWord), ∀ row ∈ tableRows, ∀ row' ∈ tableRows,
    rowMatches w row = true → rowMatches w row' = true → row = row'

/-- R72, R77: words written out from the table decode to the commands they stand for, one or more for each family, and
three words that break a must-be-zero field are refused. -/
def Obligations.WrittenOutWordsDecode : Prop :=
  decode 0x00000000#32 = .ok .nop ∧ decode 0x01006800#32 = .ok (.st 0x00#8 0x68#8) ∧
  decode 0x02090000#32 = .ok (.ld 0x09#8) ∧ decode 0x03000000#32 = .ok .setv ∧
  decode 0x10000E00#32 = .ok (.chksum 0x00#8 0x0E#8) ∧ decode 0x13FE0100#32 = .ok (.chkput 0xFE#8 0x01#8) ∧
  decode 0x20200600#32 = .ok (.bcdenc 0x20#8 0x06#8) ∧
  decode 0x22200201#32 = .ok (.bcddec 0x20#8 0x02#8 0x01#8) ∧
  decode 0x310A0200#32 = .ok (.deobf 0x0A#8 0x02#8) ∧
  decode 0x40080000#32 = .ok (.ctlx 0x08#8) ∧ decode 0x41081100#32 = .ok (.ctlpk 0x08#8 0x11#8) ∧
  decode 0x00000001#32 = .error .unusedFieldSet ∧ decode 0x02090100#32 = .error .unusedFieldSet ∧
  decode 0x04000000#32 = .error .unknownOpcode

/-- R26, R59, R70: when the host's next move is a command whose word decodes, the step is that command's `exec`, with
the move taken off the host's list and its operand on the bus, both fields of the model (log 3, log 4). -/
def Obligations.StepRunsTheDecodedCommand : Prop :=
  ∀ (s : State) (cmd : CmdWord) (opd : Value) (rest : List HostMove) (i : Instr),
    s.host = .command cmd opd :: rest → decode cmd = .ok i → i.WellFormed = true →
      step s = exec i { s with host := rest, opd := opd }

/-! ### The sixteen commands: encoding, effect and range fault of each (FAULT = 0; the halt is stated below) -/

/-- R100: NOP does nothing. -/
def Obligations.NopDoesNothing : Prop :=
  (∀ w, decode w = .ok .nop ↔ w = 0x00000000#32) ∧ ∀ s : State, exec .nop s = .next s

/-- R101: ST writes the byte at its index, and nothing else. -/
def Obligations.StStoresItsByte : Prop :=
  ∀ (a b : Byte) (s : State), s.fault = 0#4 →
    (∀ w, decode w = .ok (.st a b) ↔ w = shiftedWord 0x01#8 a b 0#8) ∧
    ∃ t, exec (.st a b) s = .next t ∧ t = { s with fb := t.fb } ∧
      ∀ k, fbRead t k = if k = a.toNat then b else fbRead s k

/-- R102: LD copies the byte at its index into D, and changes nothing else. -/
def Obligations.LdLoadsIntoD : Prop :=
  ∀ (a : Byte) (s : State), s.fault = 0#4 →
    (∀ w, decode w = .ok (.ld a) ↔ w = shiftedWord 0x02#8 a 0#8 0#8) ∧
    exec (.ld a) s = .next { s with d := fbRead s a.toNat }

/-- R103: SETV loads V from the operand bus, and changes nothing else; it is the only command that reads the bus. -/
def Obligations.SetvLoadsTheOperand : Prop :=
  (∀ w, decode w = .ok .setv ↔ w = 0x03000000#32) ∧
  (∀ s : State, s.fault = 0#4 → exec .setv s = .next { s with v := s.opd }) ∧
  (∀ (i : Instr) (s t : State) (opd : Value), i ≠ .setv → exec i s = .next t →
    exec i { s with opd := opd } = .next { t with opd := opd })

/-- R111: CHKSUM puts the sum of the range modulo 256 into CK. -/
def Obligations.ChksumSumsTheRange : Prop :=
  ∀ (a n : Byte) (s : State), s.fault = 0#4 →
    (∀ w, decode w = .ok (.chksum a n) ↔ w = shiftedWord 0x10#8 a n 0#8) ∧
    (a.toNat + n.toNat ≤ 256 →
      exec (.chksum a n) s = .next { s with ck := BitVec.ofNat 8 (rangeSum s a.toNat n.toNat) }) ∧
    (256 < a.toNat + n.toNat → exec (.chksum a n) s = .next { s with fault := 2#4 })

/-- R112: CHKADD adds the sum of the range to CK, modulo 256. -/
def Obligations.ChkaddAddsTheRange : Prop :=
  ∀ (a n : Byte) (s : State), s.fault = 0#4 →
    (∀ w, decode w = .ok (.chkadd a n) ↔ w = shiftedWord 0x11#8 a n 0#8) ∧
    (a.toNat + n.toNat ≤ 256 →
      exec (.chkadd a n) s =
        .next { s with ck := BitVec.ofNat 8 (s.ck.toNat + rangeSum s a.toNat n.toNat) }) ∧
    (256 < a.toNat + n.toNat → exec (.chkadd a n) s = .next { s with fault := 2#4 })

/-- R113: CHKVFY puts the computed sum into CK and into CKOK whether it equals the byte after the range. -/
def Obligations.ChkvfyComparesTheStoredSum : Prop :=
  ∀ (a n : Byte) (s : State), s.fault = 0#4 →
    (∀ w, decode w = .ok (.chkvfy a n) ↔ w = shiftedWord 0x12#8 a n 0#8) ∧
    (a.toNat + n.toNat ≤ 255 →
      exec (.chkvfy a n) s = .next { s with
        ck := BitVec.ofNat 8 (rangeSum s a.toNat n.toNat)
        ckok := decide ((fbRead s (a.toNat + n.toNat)).toNat = rangeSum s a.toNat n.toNat % 256) }) ∧
    (255 < a.toNat + n.toNat → exec (.chkvfy a n) s = .next { s with fault := 2#4 })

/-- R114: CHKPUT puts the computed sum into CK and into the byte after the range. -/
def Obligations.ChkputStoresTheSum : Prop :=
  ∀ (a n : Byte) (s : State), s.fault = 0#4 →
    (∀ w, decode w = .ok (.chkput a n) ↔ w = shiftedWord 0x13#8 a n 0#8) ∧
    (a.toNat + n.toNat ≤ 255 →
      ∃ t, exec (.chkput a n) s = .next t ∧
        t = { s with ck := BitVec.ofNat 8 (rangeSum s a.toNat n.toNat), fb := t.fb } ∧
        ∀ k, fbRead t k =
          if k = a.toNat + n.toNat then BitVec.ofNat 8 (rangeSum s a.toNat n.toNat) else fbRead s k) ∧
    (255 < a.toNat + n.toNat → exec (.chkput a n) s = .next { s with fault := 2#4 })

/-- R124, R121: BCDENC writes the lowest digit pairs of V, the most significant first, tens in the high nibble; BCDOVF
tells whether digits were lost. -/
def Obligations.BcdencWritesTableOrder : Prop :=
  ∀ (a size : Byte) (s : State), s.fault = 0#4 →
    (∀ w, decode w = .ok (.bcdenc a size) ↔ w = shiftedWord 0x20#8 a size 0#8) ∧
    (a.toNat + size.toNat ≤ 256 →
      ∃ t, exec (.bcdenc a size) s = .next t ∧
        t = { s with bcdovf := decide (100 ^ size.toNat ≤ s.v.toNat), fb := t.fb } ∧
        (∀ j, j < size.toNat → ∃ p, p = s.v.toNat / 100 ^ (size.toNat - 1 - j) % 100 ∧
          (fbRead t (a.toNat + j)).toNat = 16 * (p / 10) + p % 10) ∧
        SameMemoryOutside a.toNat (a.toNat + size.toNat) s t) ∧
    (256 < a.toNat + size.toNat → exec (.bcdenc a size) s = .next { s with fault := 2#4 })

/-- R125: BCDENCR writes the same bytes in the opposite order, the nibbles of each as they are. -/
def Obligations.BcdencrWritesWireOrder : Prop :=
  ∀ (a size : Byte) (s : State), s.fault = 0#4 →
    (∀ w, decode w = .ok (.bcdencr a size) ↔ w = shiftedWord 0x21#8 a size 0#8) ∧
    (a.toNat + size.toNat ≤ 256 →
      ∃ t, exec (.bcdencr a size) s = .next t ∧
        t = { s with bcdovf := decide (100 ^ size.toNat ≤ s.v.toNat), fb := t.fb } ∧
        (∀ j, j < size.toNat → ∃ p, p = s.v.toNat / 100 ^ j % 100 ∧
          (fbRead t (a.toNat + j)).toNat = 16 * (p / 10) + p % 10) ∧
        SameMemoryOutside a.toNat (a.toNat + size.toNat) s t) ∧
    (256 < a.toNat + size.toNat → exec (.bcdencr a size) s = .next { s with fault := 2#4 })

/-- R126, R122, R123: BCDDEC decodes the last `min(len, size)` bytes of the range, the first of them the most
significant; V gets the value modulo 2^64 and BCDOVF tells of more; a nibble above 9 among them gives 0 and BCDINV. -/
def Obligations.BcddecReadsTableOrder : Prop :=
  ∀ (a len size : Byte) (s : State), s.fault = 0#4 →
    (∀ w, decode w = .ok (.bcddec a len size) ↔ w = shiftedWord 0x22#8 a len size) ∧
    (a.toNat + len.toNat ≤ 256 →
      ∀ m lo, m = min len.toNat size.toNat → lo = a.toNat + len.toNat - m →
        (AllBcd s lo (lo + m) →
          exec (.bcddec a len size) s = .next { s with
            v := BitVec.ofNat 64 (tableValue s lo m)
            bcdinv := false
            bcdovf := decide (2 ^ 64 ≤ tableValue s lo m) }) ∧
        (¬ AllBcd s lo (lo + m) →
          exec (.bcddec a len size) s = .next { s with v := 0#64, bcdinv := true, bcdovf := false })) ∧
    (256 < a.toNat + len.toNat → exec (.bcddec a len size) s = .next { s with fault := 2#4 })

/-- R127: BCDDECR decodes the first `min(len, size)` bytes of the range, the first of them the least significant; the
rest as BCDDEC. -/
def Obligations.BcddecrReadsWireOrder : Prop :=
  ∀ (a len size : Byte) (s : State), s.fault = 0#4 →
    (∀ w, decode w = .ok (.bcddecr a len size) ↔ w = shiftedWord 0x23#8 a len size) ∧
    (a.toNat + len.toNat ≤ 256 →
      ∀ m, m = min len.toNat size.toNat →
        (AllBcd s a.toNat (a.toNat + m) →
          exec (.bcddecr a len size) s = .next { s with
            v := BitVec.ofNat 64 (wireValue s a.toNat m)
            bcdinv := false
            bcdovf := decide (2 ^ 64 ≤ wireValue s a.toNat m) }) ∧
        (¬ AllBcd s a.toNat (a.toNat + m) →
          exec (.bcddecr a len size) s = .next { s with v := 0#64, bcdinv := true, bcdovf := false })) ∧
    (256 < a.toNat + len.toNat → exec (.bcddecr a len size) s = .next { s with fault := 2#4 })

/-- R141: OBF adds 0x33 modulo 256 to each byte of the range, and changes nothing else. -/
def Obligations.ObfAddsToTheRange : Prop :=
  ∀ (a n : Byte) (s : State), s.fault = 0#4 →
    (∀ w, decode w = .ok (.obf a n) ↔ w = shiftedWord 0x30#8 a n 0#8) ∧
    (a.toNat + n.toNat ≤ 256 →
      ∃ t, exec (.obf a n) s = .next t ∧ t = { s with fb := t.fb } ∧
        ∀ k, (fbRead t k).toNat =
          if a.toNat ≤ k ∧ k < a.toNat + n.toNat then ((fbRead s k).toNat + 0x33) % 256 else (fbRead s k).toNat) ∧
    (256 < a.toNat + n.toNat → exec (.obf a n) s = .next { s with fault := 2#4 })

/-- R142: DEOBF subtracts 0x33 modulo 256, that is adds 0xCD, from each byte of the range. -/
def Obligations.DeobfSubtractsFromTheRange : Prop :=
  ∀ (a n : Byte) (s : State), s.fault = 0#4 →
    (∀ w, decode w = .ok (.deobf a n) ↔ w = shiftedWord 0x31#8 a n 0#8) ∧
    (a.toNat + n.toNat ≤ 256 →
      ∃ t, exec (.deobf a n) s = .next t ∧ t = { s with fb := t.fb } ∧
        ∀ k, (fbRead t k).toNat =
          if a.toNat ≤ k ∧ k < a.toNat + n.toNat then ((fbRead s k).toNat + 0xCD) % 256 else (fbRead s k).toNat) ∧
    (256 < a.toNat + n.toNat → exec (.deobf a n) s = .next { s with fault := 2#4 })

/-- R151, R150: CTLX splits the byte at its index into the four control fields, by the masks of the layout. -/
def Obligations.CtlxSplitsTheByte : Prop :=
  ∀ (a : Byte) (s : State), s.fault = 0#4 →
    (∀ w, decode w = .ok (.ctlx a) ↔ w = shiftedWord 0x40#8 a 0#8 0#8) ∧
    exec (.ctlx a) s = .next { s with
      dir := fbRead s a.toNat &&& 0x80#8 != 0#8
      errf := fbRead s a.toNat &&& 0x40#8 != 0#8
      fup := fbRead s a.toNat &&& 0x20#8 != 0#8
      fc := BitVec.ofNat 5 ((fbRead s a.toNat).toNat % 32) }

/-- R152: CTLPK writes the function code's low five bits at its index, bits 7, 6, 5 zero, and nothing else. -/
def Obligations.CtlpkWritesTheMasterByte : Prop :=
  ∀ (a f : Byte) (s : State), s.fault = 0#4 →
    (∀ w, decode w = .ok (.ctlpk a f) ↔ w = shiftedWord 0x41#8 a f 0#8) ∧
    ∃ t, exec (.ctlpk a f) s = .next t ∧ t = { s with fb := t.fb } ∧
      ∀ k, (fbRead t k).toNat = if k = a.toNat then f.toNat % 32 else (fbRead s k).toNat

/-! ### Frames: what each command leaves unchanged whenever it answers a next state -/

/-- R100 to R103: NOP changes nothing; ST only its byte; LD only D; SETV only V. -/
def Obligations.HostAccessFrame : Prop :=
  (∀ s t : State, exec .nop s = .next t → t = s) ∧
  (∀ (a b : Byte) (s t : State), exec (.st a b) s = .next t →
    t = { s with fb := t.fb } ∧ ∀ k, k ≠ indexOf a → fbRead t k = fbRead s k) ∧
  (∀ (a : Byte) (s t : State), exec (.ld a) s = .next t → t = { s with d := t.d } ∧ SameMemory s t) ∧
  (∀ s t : State, exec .setv s = .next t → t = { s with v := t.v } ∧ SameMemory s t)

/-- R111 to R114: the checksum commands change only CK, CKOK for CHKVFY alone, the byte after the range for CHKPUT
alone, and FAULT only where the extent leaves the buffer. -/
def Obligations.ChecksumFrame : Prop :=
  (∀ (a n : Byte) (s t : State), exec (.chksum a n) s = .next t ∨ exec (.chkadd a n) s = .next t →
    t = { s with ck := t.ck, fault := t.fault } ∧ SameMemory s t ∧
      (indexOf a + countOf n ≤ 256 → t.fault = s.fault)) ∧
  (∀ (a n : Byte) (s t : State), exec (.chkvfy a n) s = .next t →
    t = { s with ck := t.ck, ckok := t.ckok, fault := t.fault } ∧ SameMemory s t ∧
      (indexOf a + countOf n ≤ 255 → t.fault = s.fault)) ∧
  (∀ (a n : Byte) (s t : State), exec (.chkput a n) s = .next t →
    t = { s with ck := t.ck, fb := t.fb, fault := t.fault } ∧
      (∀ k, k ≠ checksumIndex a n → fbRead t k = fbRead s k) ∧
      (indexOf a + countOf n ≤ 255 → t.fault = s.fault))

/-- R124, R125: an encode changes only BCDOVF and the bytes of its range, and FAULT only where the extent leaves the
buffer. -/
def Obligations.BcdEncodeFrame : Prop :=
  ∀ (a size : Byte) (s t : State), exec (.bcdenc a size) s = .next t ∨ exec (.bcdencr a size) s = .next t →
    t = { s with bcdovf := t.bcdovf, fb := t.fb, fault := t.fault } ∧
      SameMemoryOutside (indexOf a) (indexOf a + countOf size) s t ∧
      (indexOf a + countOf size ≤ 256 → t.fault = s.fault)

/-- R126, R127: a decode changes only V, BCDINV and BCDOVF, and FAULT only where the extent leaves the buffer. -/
def Obligations.BcdDecodeFrame : Prop :=
  ∀ (a len size : Byte) (s t : State),
    exec (.bcddec a len size) s = .next t ∨ exec (.bcddecr a len size) s = .next t →
      t = { s with v := t.v, bcdinv := t.bcdinv, bcdovf := t.bcdovf, fault := t.fault } ∧ SameMemory s t ∧
        (indexOf a + countOf len ≤ 256 → t.fault = s.fault)

/-- R141, R142: OBF and DEOBF change only the bytes of their range, and FAULT only where the extent leaves the buffer. -/
def Obligations.ObfuscationFrame : Prop :=
  ∀ (a n : Byte) (s t : State), exec (.obf a n) s = .next t ∨ exec (.deobf a n) s = .next t →
    t = { s with fb := t.fb, fault := t.fault } ∧
      SameMemoryOutside (indexOf a) (indexOf a + countOf n) s t ∧
      (indexOf a + countOf n ≤ 256 → t.fault = s.fault)

/-- R151, R152: CTLX changes only the four control fields; CTLPK only its byte, the control fields not. -/
def Obligations.ControlByteFrame : Prop :=
  (∀ (a : Byte) (s t : State), exec (.ctlx a) s = .next t →
    t = { s with dir := t.dir, errf := t.errf, fup := t.fup, fc := t.fc } ∧ SameMemory s t) ∧
  (∀ (a f : Byte) (s t : State), exec (.ctlpk a f) s = .next t →
    t = { s with fb := t.fb } ∧ ∀ k, k ≠ indexOf a → fbRead t k = fbRead s k)

/-! ### Faults, the halt, reset -/

/-- R182: F_RANGE is raised exactly when the extent, decided from `a` and `b` alone, leaves the buffer; then nothing
else is written. -/
def Obligations.RangeFaultExactlyOutsideTheBuffer : Prop :=
  ∀ (i : Instr) (s : State), s.fault = 0#4 →
    (256 < extentEnd i → exec i s = .next { s with fault := 2#4 }) ∧
    (extentEnd i ≤ 256 → ∃ t, exec i s = .next t ∧ t.fault = 0#4)

/-- R183: a command that faults writes FAULT and nothing else of the block, and only on a running block. The list of
moves and the operand bus are the model's fields (log 3, log 4). -/
def Obligations.FaultEntryWritesOnlyFault : Prop :=
  ∀ (s t : State) (cmd : CmdWord) (opd : Value) (rest : List HostMove),
    s.host = .command cmd opd :: rest → step s = .next t → t.fault ≠ s.fault →
      s.fault = 0#4 ∧ (t.fault = 1#4 ∨ t.fault = 2#4) ∧
      t = { s with host := rest, opd := opd, fault := t.fault }

/-- R184: while FAULT is not 0 every transaction, legal or illegal, leaves the block's state unchanged, and the host
still reads every register. The list of moves and the operand bus are the model's fields (log 3, log 4). -/
def Obligations.HaltedBlockIgnoresCommands : Prop :=
  ∀ (s : State) (cmd : CmdWord) (opd : Value) (rest : List HostMove),
    s.fault ≠ 0#4 → s.host = .command cmd opd :: rest →
      ∃ t, step s = .next t ∧ t = { s with host := rest, opd := opd } ∧ outputs t = outputs s

/-- R185: the only way out of the halted state is reset, which clears FAULT and every other register; a halted block
raises no fault. -/
def Obligations.OnlyResetLeavesTheHalt : Prop :=
  ∀ s t : State, s.fault ≠ 0#4 → step s = .next t → t.fault ≠ s.fault →
    t.fault = 0#4 ∧ outputs t = ⟨0#64, 0#8, 0#8, 0#8, 0#8⟩ ∧ ∃ rest, s.host = .reset :: rest

/-- R36, R200, R201: after the host's reset every register is 0, on a running and on a halted block. What the bytes then
read as is the model's free value of that reset (log 1, log 5); the host's list and its bus survive it (log 12). -/
def Obligations.ResetMoveClearsTheBlock : Prop :=
  ∀ (s : State) (rest : List HostMove), s.host = .reset :: rest →
    ∃ t, step s = .next t ∧ t = { State.reset with host := rest, opd := s.opd, resets := s.resets + 1 } ∧
      ∀ k, fbRead t k = Config.fbReset (s.resets + 1) k

/-- R36: every register is 0 after reset, hence STATUS and CTLF are 0x00. -/
def Obligations.ResetStateIsAllZero : Prop :=
  State.reset.v = 0#64 ∧ State.reset.ck = 0#8 ∧ State.reset.d = 0#8 ∧ State.reset.dir = false ∧
  State.reset.errf = false ∧ State.reset.fup = false ∧ State.reset.fc = 0#5 ∧ State.reset.ckok = false ∧
  State.reset.bcdinv = false ∧ State.reset.bcdovf = false ∧ State.reset.fault = 0#4 ∧
  status State.reset = 0x00#8 ∧ ctlf State.reset = 0x00#8

/-- R31, R38: every step keeps FAULT in 0, 1, 2 and the frame buffer's cells canonical (log 2)
and inside the buffer. -/
def Obligations.StepKeepsGood : Prop :=
  ∀ s t : State, s.Good → step s = .next t → t.Good

/-- R36, R38: the state after reset is good (log 2). -/
def Obligations.ResetIsGood : Prop := State.reset.Good

/-- R205: every command completes: no state and no move of the host leaves the block stuck. -/
def Obligations.EveryStepCompletes : Prop :=
  ∀ s : State, ∃ t, step s = .next t

/-- R20, R26: each step takes exactly one move off the host's list, whatever the command does; a block without a move
stays as it is (log 3). -/
def Obligations.HostMovesAreTakenInOrder : Prop :=
  (∀ (s t : State) (m : HostMove) (ms : List HostMove), s.host = m :: ms → step s = .next t → t.host = ms) ∧
  (∀ s : State, s.host = [] → step s = .next s)

/-! ### The views -/

/-- R29: CTLF is the four control fields as one byte; after CTLX of a byte x, CTLF = x. -/
def Obligations.ControlViewIsTheByteRead : Prop :=
  (∀ s : State, (ctlf s).getLsbD 7 = s.dir ∧ (ctlf s).getLsbD 6 = s.errf ∧ (ctlf s).getLsbD 5 = s.fup ∧
    (ctlf s).extractLsb' 0 5 = s.fc) ∧
  (∀ (a : Byte) (s : State), s.fault = 0#4 →
    ∃ t, exec (.ctlx a) s = .next t ∧ ctlf t = fbRead s a.toNat)

/-- R30: the layout of STATUS. -/
def Obligations.StatusLayout : Prop :=
  ∀ s : State, (status s).getLsbD 0 = s.ckok ∧ (status s).getLsbD 1 = s.bcdinv ∧
    (status s).getLsbD 2 = s.bcdovf ∧ (status s).getLsbD 3 = false ∧ (status s).extractLsb' 4 4 = s.fault

/-! ### Whole-machine rules, over all commands -/

/-- R21, R27: each register and each flag changes only under a command listed as its writer. -/
def Obligations.RegistersChangeOnlyByTheirWriters : Prop :=
  ∀ (i : Instr) (s t : State), exec i s = .next t →
    (t.v ≠ s.v → i = .setv ∨ ∃ a n k, i = .bcddec a n k ∨ i = .bcddecr a n k) ∧
    (t.ck ≠ s.ck → ∃ a n, i = .chksum a n ∨ i = .chkadd a n ∨ i = .chkvfy a n ∨ i = .chkput a n) ∧
    (t.d ≠ s.d → ∃ a, i = .ld a) ∧
    ((t.dir ≠ s.dir ∨ t.errf ≠ s.errf ∨ t.fup ≠ s.fup ∨ t.fc ≠ s.fc) → ∃ a, i = .ctlx a) ∧
    (t.ckok ≠ s.ckok → ∃ a n, i = .chkvfy a n) ∧
    (t.bcdinv ≠ s.bcdinv → ∃ a n k, i = .bcddec a n k ∨ i = .bcddecr a n k) ∧
    (t.bcdovf ≠ s.bcdovf → (∃ a k, i = .bcdenc a k ∨ i = .bcdencr a k) ∨
      ∃ a n k, i = .bcddec a n k ∨ i = .bcddecr a n k)

/-- R51: a byte of the frame buffer changes only under a command that the table says writes it, there. -/
def Obligations.BytesChangeOnlyWhereTabled : Prop :=
  ∀ (i : Instr) (s t : State) (k : Nat), exec i s = .next t → fbRead t k ≠ fbRead s k → writesAt i k

/-- R51, R123, R35: a command's results depend on no byte of the frame buffer but those the table says it reads: two
states that differ elsewhere in the buffer alone end with the same registers and the same bytes written. -/
def Obligations.ResultsDependOnlyOnBytesRead : Prop :=
  ∀ (i : Instr) (s s' t t' : State), s' = { s with fb := s'.fb, resets := s'.resets } →
    (∀ k, readsAt i k → fbRead s' k = fbRead s k) → exec i s = .next t → exec i s' = .next t' →
      t' = { t with fb := t'.fb, resets := s'.resets } ∧
      (∀ k, writesAt i k → s.fault = 0#4 → extentEnd i ≤ 256 → fbRead t' k = fbRead t k)

/-- R204, R184: after the first fault the rest of a command list does nothing but pass over the operand bus (log 4), and
the run is not successful: of the moves that led to the fault whatever they were (log 3), and so of a run of R204, a reset
and then a program of commands. -/
def Obligations.CommandsAfterAFaultDoNothing : Prop :=
  (∀ (first : List HostMove) (rest : List (CmdWord × Value)) (s t : State),
    takeMoves first s = .next t → t.fault ≠ 0#4 →
      (∃ opd, takeMoves (first ++ commandMoves rest) s = .next { t with opd := opd }) ∧
      ¬ Successful (takeMoves (first ++ commandMoves rest) s)) ∧
  (∀ (program rest : List (CmdWord × Value)) (s t : State),
    runFromReset program s = .next t → t.fault ≠ 0#4 →
      (∃ opd, runFromReset (program ++ rest) s = .next { t with opd := opd }) ∧
      ¬ Successful (runFromReset (program ++ rest) s))

/-! ### Laws of the units -/

/-- R115: the laws of sum8. -/
def Obligations.ChecksumLaws : Prop :=
  ∀ xs ys : List Byte,
    (sum8 (xs ++ ys)).toNat = ((sum8 xs).toNat + (sum8 ys).toNat) % 256 ∧
    (xs.Perm ys → sum8 xs = sum8 ys) ∧ sum8 xs.reverse = sum8 xs ∧
    (sum8 xs).toNat = (xs.map BitVec.toNat).sum % 256 ∧
    sum8 (xs.filter (· != 0#8)) = sum8 xs ∧
    (sum8 (xs.map obf)).toNat = ((sum8 xs).toNat + 0x33 * xs.length) % 256

/-- R112, R114: a range summed in two parts gives what it gives in one; CHKVFY after CHKPUT finds the sum it stored. -/
def Obligations.ChecksumCommandsCompose : Prop :=
  (∀ (a k m : Byte) (s t u : State), s.fault = 0#4 → a.toNat + k.toNat + m.toNat ≤ 256 →
    k.toNat + m.toNat ≤ 255 → a.toNat + k.toNat ≤ 255 →
    exec (.chksum a k) s = .next t → exec (.chkadd (a + k) m) t = .next u → exec (.chksum a (k + m)) s = .next u) ∧
  (∀ (a n : Byte) (s t : State), s.fault = 0#4 → a.toNat + n.toNat ≤ 255 → exec (.chkput a n) s = .next t →
    ∃ u, exec (.chkvfy a n) t = .next u ∧ u = { t with ckok := true })

/-- R116: with the stored checksum right, changing exactly one byte is seen by CHKVFY if that byte is covered or is the
checksum byte itself, and is not seen anywhere else; nor are changes that leave the sum modulo 256 as it was. -/
def Obligations.SingleByteTamperDetection : Prop :=
  ∀ (a n : Byte) (s s' t t' : State), s.fault = 0#4 → s'.fault = 0#4 → a.toNat + n.toNat ≤ 255 →
    exec (.chkvfy a n) s = .next t → t.ckok = true → exec (.chkvfy a n) s' = .next t' →
      (∀ k, (∀ j, j ≠ k → fbRead s' j = fbRead s j) → fbRead s' k ≠ fbRead s k →
        (a.toNat ≤ k ∧ k ≤ a.toNat + n.toNat → t'.ckok = false) ∧
        (k < a.toNat ∨ a.toNat + n.toNat < k → t'.ckok = true)) ∧
      (fbRead s' (a.toNat + n.toNat) = fbRead s (a.toNat + n.toNat) →
        rangeSum s' a.toNat n.toNat % 256 = rangeSum s a.toNat n.toNat % 256 → t'.ckok = true)

/-- R121: encodeBCD in closed form; it depends on the value modulo 100^k alone, and a longer encoding is zero-filled in
front. -/
def Obligations.EncodeBcdClosedForm : Prop :=
  ∀ v k : Nat, (encodeBCD v k).length = k ∧
    (∀ j, j < k → (encodeBCD v k)[j]? = some (bcdByte (v / 100 ^ (k - 1 - j) % 100))) ∧
    (∀ x ∈ encodeBCD v k, isBcdByte x = true) ∧
    encodeBCD v k = encodeBCD (v % 100 ^ k) k ∧
    ∀ k', k ≤ k' → v < 100 ^ k → encodeBCD v k' = List.replicate (k' - k) 0#8 ++ encodeBCD v k

/-- R128: an encode followed by the decode of the same order leaves V as it was modulo 100^size, in both orders, with
BCDOVF of the encode telling whether digits were lost. -/
def Obligations.BcdEncodeThenDecode : Prop :=
  ∀ (a size : Byte) (s t : State), s.fault = 0#4 → a.toNat + size.toNat ≤ 256 →
    (exec (.bcdenc a size) s = .next t →
      t.bcdovf = decide (100 ^ size.toNat ≤ s.v.toNat) ∧
      ∃ u, exec (.bcddec a size size) t = .next u ∧ u.v.toNat = s.v.toNat % 100 ^ size.toNat ∧
        u.bcdinv = false ∧ u.bcdovf = false) ∧
    (exec (.bcdencr a size) s = .next t →
      t.bcdovf = decide (100 ^ size.toNat ≤ s.v.toNat) ∧
      ∃ u, exec (.bcddecr a size size) t = .next u ∧ u.v.toNat = s.v.toNat % 100 ^ size.toNat ∧
        u.bcdinv = false ∧ u.bcdovf = false)

/-- R128: a decode of valid BCD bytes that stand for a value below 2^64, followed by the encode, leaves the bytes
unchanged, in both orders. -/
def Obligations.BcdDecodeThenEncode : Prop :=
  ∀ (a k : Byte) (s t u : State), s.fault = 0#4 → a.toNat + k.toNat ≤ 256 →
    AllBcd s a.toNat (a.toNat + k.toNat) →
    (tableValue s a.toNat k.toNat < 2 ^ 64 → exec (.bcddec a k k) s = .next t → exec (.bcdenc a k) t = .next u →
      SameMemory s u ∧ u.bcdovf = false) ∧
    (wireValue s a.toNat k.toNat < 2 ^ 64 → exec (.bcddecr a k k) s = .next t → exec (.bcdencr a k) t = .next u →
      SameMemory s u ∧ u.bcdovf = false)

/-- R143: OBF then DEOBF of a range, and DEOBF then OBF, leave the frame buffer unchanged. -/
def Obligations.ObfuscationInverses : Prop :=
  ∀ (a n : Byte) (s t u : State), s.fault = 0#4 → a.toNat + n.toNat ≤ 256 →
    (exec (.obf a n) s = .next t → exec (.deobf a n) t = .next u → SameMemory s u) ∧
    (exec (.deobf a n) s = .next t → exec (.obf a n) t = .next u → SameMemory s u)

/-- R153: CTLX after CTLPK finds the masked code and no flag; CTLX after ST loses nothing. -/
def Obligations.ControlByteLaws : Prop :=
  (∀ (a f : Byte) (s t : State), s.fault = 0#4 → exec (.ctlpk a f) s = .next t →
    ∃ u, exec (.ctlx a) t = .next u ∧ u.dir = false ∧ u.errf = false ∧ u.fup = false ∧
      u.fc = BitVec.ofNat 5 (f.toNat % 32)) ∧
  (∀ (a x : Byte) (s t : State), s.fault = 0#4 → exec (.st a x) s = .next t →
    ∃ u, exec (.ctlx a) t = .next u ∧ ctlf u = x)

/-! ### The reference compositions -/

/-- R78: the string store puts its bytes at rising indices from `a` on, and changes nothing else of the block. -/
def Obligations.StringStoreWritesItsBytes : Prop :=
  ∀ (a : Nat) (bytes : List Byte) (s : State), s.fault = 0#4 → a + bytes.length ≤ 256 →
    ∃ t, takeMoves (storeString a bytes) s = .next t ∧ t = { s with fb := t.fb, opd := t.opd } ∧
      memRead t a bytes.length = bytes ∧ SameMemoryOutside a (a + bytes.length) s t

/-- R85, R161: the frame of FrameEncode, byte for byte: delimiters, address in wire order, masked function code, length,
obfuscated data, and the sum of all bytes before it as checksum; more than 200 data bytes are refused. -/
def Obligations.FrameHasTheWireLayout : Prop :=
  ∀ (addr : BitVec 48) (p : FramePayload),
    (200 < p.data.length → frameEncode addr p = .error .validation) ∧
    (p.data.length ≤ 200 →
      ∃ raw, frameEncode addr p = .ok raw ∧ raw.length = 12 + p.data.length ∧
        raw[0]? = some 0x68#8 ∧ raw[7]? = some 0x68#8 ∧
        (∀ k, k < 6 → raw[1 + k]? = some (bcdByte (addr.toNat / 100 ^ k % 100))) ∧
        raw[8]? = some (p.functionCode &&& 0x1F#8) ∧ raw[9]? = some (BitVec.ofNat 8 p.data.length) ∧
        (∀ k, k < p.data.length → raw[10 + k]? = (p.data[k]?).map (· + 0x33#8)) ∧
        raw[10 + p.data.length]? =
          some (BitVec.ofNat 8 ((raw.take (10 + p.data.length)).map BitVec.toNat).sum) ∧
        raw[11 + p.data.length]? = some 0x16#8)

/-- R163: FrameDecode, step by step: the length, the checksum, the length byte, then the error flag with data, else the
payload. -/
def Obligations.FrameDecodeSteps : Prop :=
  ∀ raw : List Byte,
    (raw.length < 12 ∨ 212 < raw.length → frameDecode raw = .error .framing) ∧
    (12 ≤ raw.length → raw.length ≤ 212 →
      ∀ (stored len c : Byte) (data : List Byte), raw[raw.length - 2]? = some stored → raw[9]? = some len →
        raw[8]? = some c → data = ((raw.take (raw.length - 2)).drop 10).map (· - 0x33#8) →
        (((raw.take (raw.length - 2)).map BitVec.toNat).sum % 256 ≠ stored.toNat →
          frameDecode raw = .error .checksum) ∧
        (((raw.take (raw.length - 2)).map BitVec.toNat).sum % 256 = stored.toNat →
          (len.toNat ≠ raw.length - 12 → frameDecode raw = .error .framing) ∧
          (len.toNat = raw.length - 12 →
            (∀ x xs, data = x :: xs → c &&& 0x40#8 ≠ 0#8 →
              frameDecode raw = .error (.protocolException (c &&& 0x1F#8) x)) ∧
            (data = [] ∨ c &&& 0x40#8 = 0#8 →
              frameDecode raw = .ok ⟨c &&& 0x20#8 != 0#8, c &&& 0x1F#8, data⟩))))

/-- R169: decoding an encoded frame gives the payload back, its follow-up flag cleared (conflict C4). -/
def Obligations.FrameRoundTrip : Prop :=
  ∀ (addr : BitVec 48) (p : FramePayload), p.data.length ≤ 200 → p.functionCode.toNat < 32 →
    ∃ raw, frameEncode addr p = .ok raw ∧ frameDecode raw = .ok { p with hasFollowUpData := false }

/-- R170: one byte of an encoded frame changed gives a checksum error, unless it is the end delimiter, whose change
nothing sees. -/
def Obligations.FrameTamperDetection : Prop :=
  ∀ (addr : BitVec 48) (p : FramePayload) (raw : List Byte) (k : Nat) (x : Byte),
    frameEncode addr p = .ok raw → k < raw.length → raw[k]? ≠ some x →
      (k ≤ 10 + p.data.length → frameDecode (raw.set k x) = .error .checksum) ∧
      (k = 11 + p.data.length → frameDecode (raw.set k x) = frameDecode raw)

/-- R162: the Encode sequence run on the block leaves the frame of FrameEncode at base 0, with the end state R162
gives, and too long a payload issues no command. -/
def Obligations.EncodeSequenceBuildsTheFrame : Prop :=
  ∀ (addr : BitVec 48) (p : FramePayload) (s : State), s.fault = 0#4 →
    (encodeSequence addr p.functionCode p.data).length = 9 + p.data.length ∧
    (p.data.length ≤ 200 →
      ∃ t raw, hostEncode addr p s = .next (t, .ok ()) ∧ frameEncode addr p = .ok raw ∧
        memRead t 0 (12 + p.data.length) = raw ∧ raw[10 + p.data.length]? = some t.ck ∧
        t.v = addr.setWidth 64 ∧ t.bcdovf = decide (10 ^ 12 ≤ addr.toNat) ∧ t.fault = 0#4 ∧
        SameMemoryOutside 0 (12 + p.data.length) s t) ∧
    (200 < p.data.length →
      hostEncode addr p s = .next (s, .error .validation) ∧ frameEncode addr p = .error .validation)

/-- R164: the Decode sequence run on the block gives the host what FrameDecode gives, and never halts the block.
R168: so does the receive path, Verify first and then Decode with each error passed on unchanged, on a block that holds
the response, with the request's address bytes kept or regenerated at a place behind the response. -/
def Obligations.DecodeSequenceAgrees : Prop :=
  (∀ (raw : List Byte) (s : State), s.fault = 0#4 →
    ∃ t, hostDecode raw s = .next (t, frameDecode raw) ∧ t.fault = 0#4) ∧
  (∀ req resp : List Byte,
    (∀ e, frameVerify req resp = some (.error e) → frameReceive req resp = some (.error e)) ∧
    (frameVerify req resp = some (.ok ()) → frameReceive req resp = some (frameDecode resp))) ∧
  (∀ (req resp : List Byte) (s : State), s.fault = 0#4 → 7 ≤ req.length → resp.length ≤ 256 →
    memRead s 0 resp.length = resp →
    ∃ t r, frameReceive req resp = some r ∧ hostReceive req resp.length s = some (.next (t, r)) ∧ t.fault = 0#4) ∧
  (∀ (addr : BitVec 48) (p : FramePayload) (req resp : List Byte) (q : Byte) (s : State), s.fault = 0#4 →
    frameEncode addr p = .ok req → resp.length ≤ q.toNat → q.toNat + 6 ≤ 256 → memRead s 0 resp.length = resp →
    ∃ t r, frameReceive req resp = some r ∧ hostReceiveRegenerated addr q resp.length s = .next (t, r) ∧
      t.fault = 0#4)

/-- R167, R168: Verify compares the address bytes of a response of ten bytes or more and nothing else, as a function and
as LD commands on the block. -/
def Obligations.VerifyComparesTheAddress : Prop :=
  (∀ req resp : List Byte, 7 ≤ req.length →
    (resp.length < 10 → frameVerify req resp = some (.error .framing)) ∧
    (10 ≤ resp.length → (∃ k, 1 ≤ k ∧ k ≤ 6 ∧ resp[k]? ≠ req[k]?) →
      frameVerify req resp = some (.error .addressMismatch)) ∧
    (10 ≤ resp.length → (∀ k, 1 ≤ k → k ≤ 6 → resp[k]? = req[k]?) → frameVerify req resp = some (.ok ()))) ∧
  (∀ (req resp : List Byte) (s : State), s.fault = 0#4 → 7 ≤ req.length → resp.length ≤ 256 →
    memRead s 0 resp.length = resp →
    ∃ t r, frameVerify req resp = some r ∧ hostVerify req resp.length s = some (.next (t, r)) ∧
      t.fault = 0#4 ∧ SameMemory s t)
end

