-- ==== Sys2Proof/Laws/Codec.lean ====
section
/-! SUPPORT. Small facts of the pure functions: lengths, nibbles, single bytes. -/

namespace Sys2Proof.Machine

@[simp] theorem sum8_nil : sum8 [] = 0#8 := rfl

theorem sum8_toNat (bytes : List Byte) : (sum8 bytes).toNat = (bytes.map BitVec.toNat).sum % 256 := by
  simp [sum8]

@[simp] theorem encodeLoop_length (k v : Nat) (out : List Byte) : (encodeLoop k v out).length = k + out.length := by
  induction k generalizing v out with
  | zero => simp [encodeLoop]
  | succ k ih => simp [encodeLoop, ih]; omega

/-- "exactly `k` bytes" (R120). -/
@[simp] theorem encodeBCD_length (v k : Nat) : (encodeBCD v k).length = k := by
  simp [encodeBCD]

/-- The loop writes in front of what it has written. -/
theorem encodeLoop_append (k v : Nat) (out : List Byte) : encodeLoop k v out = encodeBCD v k ++ out := by
  unfold encodeBCD
  induction k generalizing v out with
  | zero => rfl
  | succ k ih => rw [encodeLoop, encodeLoop, ih, ih (out := [_])]; simp

/-- The last byte of an encoding is the lowest digit pair, the rest encodes the quotient. -/
theorem encodeBCD_succ (v k : Nat) : encodeBCD v (k + 1) = encodeBCD (v / 100) k ++ [bcdByte (v % 100)] := by
  rw [encodeBCD, encodeLoop, encodeLoop_append]

theorem highNibble_bcdByte : ∀ p < 100, highNibble (bcdByte p) = p / 10 := by decide

theorem lowNibble_bcdByte : ∀ p < 100, lowNibble (bcdByte p) = p % 10 := by decide

theorem isBcdByte_bcdByte : ∀ p < 100, isBcdByte (bcdByte p) = true := by decide

theorem bcdByte_toNat : ∀ p < 100, (bcdByte p).toNat = 16 * (p / 10) + p % 10 := by decide

/-- A BCD byte is the packed byte of its own two digits. -/
theorem bcdByte_of_nibbles : ∀ x : Byte, isBcdByte x = true → bcdByte (10 * highNibble x + lowNibble x) = x := by
  decide

theorem decodeLoop_append (val : Nat) (xs ys : List Byte) :
    decodeLoop val (xs ++ ys) = decodeLoop (decodeLoop val xs) ys := by
  induction xs generalizing val with
  | nil => rfl
  | cons x xs ih => simp [decodeLoop, ih]

@[simp] theorem deobf_obf (x : Byte) : deobf (obf x) = x := by simp [obf, deobf]

@[simp] theorem obf_deobf (x : Byte) : obf (deobf x) = x := by simp [obf, deobf]

/-- The four fields hold the whole control byte (R150). -/
theorem control_fields_whole : ∀ x : Byte,
    BitVec.ofBool (controlDir x) ++ BitVec.ofBool (controlErr x) ++ BitVec.ofBool (controlFup x) ++ controlFc x = x := by
  decide

end Sys2Proof.Machine
end

