-- ==== Sys2Proof/Laws/PerInstr.lean ====
section
/-! SUPPORT. Per instruction: its fields are those its format allows, and its word stands in its row of the table. -/

namespace Sys2Proof.Laws

/-- A bit of a word put together from its four fields. -/
theorem joinWord_getLsbD (op : Byte) (w : Fields) (i : Nat) :
    (joinWord op w).getLsbD i =
      if i < 8 then w.c.getLsbD i else if i < 16 then w.b.getLsbD (i - 8)
      else if i < 24 then w.a.getLsbD (i - 16) else op.getLsbD (i - 24) := by
  unfold joinWord
  simp only [BitVec.getLsbD_append]
  by_cases h1 : i < 8
  · simp [h1]
  · by_cases h2 : i < 16
    · simp [h1, h2, show i - 8 < 8 by omega]
    · by_cases h3 : i < 24
      · simp [h1, h2, h3, show ¬ i - 8 < 8 by omega, show i - 8 - 8 = i - 16 by omega,
          show i - 16 < 8 by omega]
      · simp [h1, h2, h3, show ¬ i - 8 < 8 by omega, show ¬ i - 8 - 8 < 8 by omega,
          show i - 8 - 8 - 8 = i - 24 by omega]

namespace RowMatch

/-- The command is well formed, and its word and-ed with its row's mask gives its row's match (R71, R72). -/
def Statement (i : Instr) : Prop := i.WellFormed = true ∧ rowMatches (encode i) i = true

/-- The mask of format FABC keeps the opcode alone. -/
theorem masked_fabc (op : Byte) (w : Fields) : joinWord op w &&& 0xFF000000#32 = joinWord op ⟨0#8, 0#8, 0#8⟩ := by
  apply BitVec.eq_of_getLsbD_eq
  intro i hi
  rw [BitVec.getLsbD_and, joinWord_getLsbD, joinWord_getLsbD]
  interval_cases i <;> simp

/-- The mask of format FAB keeps the opcode and the unused field. -/
theorem masked_fab (op a b : Byte) : joinWord op ⟨a, b, 0#8⟩ &&& 0xFF0000FF#32 = joinWord op ⟨0#8, 0#8, 0#8⟩ := by
  apply BitVec.eq_of_getLsbD_eq
  intro i hi
  rw [BitVec.getLsbD_and, joinWord_getLsbD, joinWord_getLsbD]
  interval_cases i <;> simp

/-- The mask of format FA keeps the opcode and both unused fields. -/
theorem masked_fa (op a : Byte) : joinWord op ⟨a, 0#8, 0#8⟩ &&& 0xFF00FFFF#32 = joinWord op ⟨0#8, 0#8, 0#8⟩ := by
  apply BitVec.eq_of_getLsbD_eq
  intro i hi
  rw [BitVec.getLsbD_and, joinWord_getLsbD, joinWord_getLsbD]
  interval_cases i <;> simp

theorem nop : Statement .nop := ⟨rfl, rfl⟩

theorem setv : Statement .setv := ⟨rfl, rfl⟩

theorem st (a b : Byte) : Statement (.st a b) :=
  ⟨rfl, beq_iff_eq.mpr (masked_fab 0x01#8 a b)⟩

theorem ld (a : Byte) : Statement (.ld a) :=
  ⟨rfl, beq_iff_eq.mpr (masked_fa 0x02#8 a)⟩

theorem chksum (a n : Byte) : Statement (.chksum a n) :=
  ⟨rfl, beq_iff_eq.mpr (masked_fab 0x10#8 a n)⟩

theorem chkadd (a n : Byte) : Statement (.chkadd a n) :=
  ⟨rfl, beq_iff_eq.mpr (masked_fab 0x11#8 a n)⟩

theorem chkvfy (a n : Byte) : Statement (.chkvfy a n) :=
  ⟨rfl, beq_iff_eq.mpr (masked_fab 0x12#8 a n)⟩

theorem chkput (a n : Byte) : Statement (.chkput a n) :=
  ⟨rfl, beq_iff_eq.mpr (masked_fab 0x13#8 a n)⟩

theorem bcdenc (a size : Byte) : Statement (.bcdenc a size) :=
  ⟨rfl, beq_iff_eq.mpr (masked_fab 0x20#8 a size)⟩

theorem bcdencr (a size : Byte) : Statement (.bcdencr a size) :=
  ⟨rfl, beq_iff_eq.mpr (masked_fab 0x21#8 a size)⟩

theorem bcddec (a len size : Byte) : Statement (.bcddec a len size) :=
  ⟨rfl, beq_iff_eq.mpr (masked_fabc 0x22#8 ⟨a, len, size⟩)⟩

theorem bcddecr (a len size : Byte) : Statement (.bcddecr a len size) :=
  ⟨rfl, beq_iff_eq.mpr (masked_fabc 0x23#8 ⟨a, len, size⟩)⟩

theorem obf (a n : Byte) : Statement (.obf a n) :=
  ⟨rfl, beq_iff_eq.mpr (masked_fab 0x30#8 a n)⟩

theorem deobf (a n : Byte) : Statement (.deobf a n) :=
  ⟨rfl, beq_iff_eq.mpr (masked_fab 0x31#8 a n)⟩

theorem ctlx (a : Byte) : Statement (.ctlx a) :=
  ⟨rfl, beq_iff_eq.mpr (masked_fa 0x40#8 a)⟩

theorem ctlpk (a f : Byte) : Statement (.ctlpk a f) :=
  ⟨rfl, beq_iff_eq.mpr (masked_fab 0x41#8 a f)⟩

end RowMatch
end Sys2Proof.Laws
end

