-- ==== Sys2Proof/Laws/Encoding.lean ====
section
/-! SUPPORT. The fields of a command word: joined, taken apart, and written with shifts. -/

namespace Sys2Proof.Laws

/-- The opcode of a joined word. -/
theorem wordOp_joinWord (op : Byte) (w : Fields) : wordOp (joinWord op w) = op := by
  apply BitVec.eq_of_getLsbD_eq
  intro i hi
  simp only [wordOp, BitVec.getLsbD_extractLsb', joinWord_getLsbD]
  simp [hi, show ¬ 24 + i < 8 by omega, show ¬ 24 + i < 16 by omega]

/-- The operand fields of a joined word. -/
theorem wordFields_joinWord (op : Byte) (w : Fields) : wordFields (joinWord op w) = w := by
  obtain ⟨a, b, c⟩ := w
  simp only [wordFields, Fields.mk.injEq]
  refine ⟨?_, ?_, ?_⟩ <;>
    (apply BitVec.eq_of_getLsbD_eq; intro i hi; simp only [BitVec.getLsbD_extractLsb', joinWord_getLsbD])
  · simp [hi, show ¬ 16 + i < 8 by omega, show 16 + i < 24 by omega]
  · simp [hi, show ¬ 8 + i < 8 by omega, show 8 + i < 16 by omega]
  · simp [hi]

/-- A word is its fields joined: R71 leaves no bit out. -/
theorem joinWord_fields (w : CmdWord) : joinWord (wordOp w) (wordFields w) = w := by
  apply BitVec.eq_of_getLsbD_eq
  intro i hi
  simp only [joinWord_getLsbD, wordOp, wordFields, BitVec.getLsbD_extractLsb']
  split
  · simp [*]
  · split
    · simp [show i - 8 < 8 by omega, show 8 + (i - 8) = i by omega]
    · split
      · simp [show i - 16 < 8 by omega, show 16 + (i - 16) = i by omega]
      · simp [show i - 24 < 8 by omega, show 24 + (i - 24) = i by omega]

/-- The word as R77 writes it is the joined word. -/
theorem shiftedWord_eq_joinWord (op a b c : Byte) : Machine.shiftedWord op a b c = joinWord op ⟨a, b, c⟩ := by
  apply BitVec.eq_of_getLsbD_eq
  intro i hi
  rw [joinWord_getLsbD, Machine.shiftedWord]
  interval_cases i <;> simp

/-- A row of the opcode map: its opcode, its format, and its fields where the format accepts them. -/
theorem opcodeRow_spec {op : Byte} {w : Fields} {f : Format} {i : Instr} (h : opcodeRow op w = some (f, i)) :
    opcodeOf i = op ∧ i.format = f ∧ (f.accepts w = true → i.fields = w) := by
  unfold opcodeRow at h
  obtain ⟨a,b,c⟩ := w
  split at h <;> simp at h <;> (try (obtain ⟨rfl, rfl⟩ := h; simp [opcodeOf, Instr.format, Format.accepts, Instr.fields]; try grind))

end Sys2Proof.Laws
end

