-- ==== Sys2Proof/Laws/State.lean ====
section
/-! SUPPORT. One lemma per field per named update of the state, so that no proof unfolds a record update. -/

namespace Sys2Proof.Machine

@[simp] theorem setV_fb (x : Value) (s : State) : (setV x s).fb = s.fb := rfl
@[simp] theorem setV_v (x : Value) (s : State) : (setV x s).v = x := rfl
@[simp] theorem setV_ck (x : Value) (s : State) : (setV x s).ck = s.ck := rfl
@[simp] theorem setV_d (x : Value) (s : State) : (setV x s).d = s.d := rfl
@[simp] theorem setV_dir (x : Value) (s : State) : (setV x s).dir = s.dir := rfl
@[simp] theorem setV_errf (x : Value) (s : State) : (setV x s).errf = s.errf := rfl
@[simp] theorem setV_fup (x : Value) (s : State) : (setV x s).fup = s.fup := rfl
@[simp] theorem setV_fc (x : Value) (s : State) : (setV x s).fc = s.fc := rfl
@[simp] theorem setV_ckok (x : Value) (s : State) : (setV x s).ckok = s.ckok := rfl
@[simp] theorem setV_bcdinv (x : Value) (s : State) : (setV x s).bcdinv = s.bcdinv := rfl
@[simp] theorem setV_bcdovf (x : Value) (s : State) : (setV x s).bcdovf = s.bcdovf := rfl
@[simp] theorem setV_fault (x : Value) (s : State) : (setV x s).fault = s.fault := rfl
@[simp] theorem setV_opd (x : Value) (s : State) : (setV x s).opd = s.opd := rfl
@[simp] theorem setV_host (x : Value) (s : State) : (setV x s).host = s.host := rfl
@[simp] theorem setV_resets (x : Value) (s : State) : (setV x s).resets = s.resets := rfl

@[simp] theorem setCk_fb (x : Byte) (s : State) : (setCk x s).fb = s.fb := rfl
@[simp] theorem setCk_v (x : Byte) (s : State) : (setCk x s).v = s.v := rfl
@[simp] theorem setCk_ck (x : Byte) (s : State) : (setCk x s).ck = x := rfl
@[simp] theorem setCk_d (x : Byte) (s : State) : (setCk x s).d = s.d := rfl
@[simp] theorem setCk_dir (x : Byte) (s : State) : (setCk x s).dir = s.dir := rfl
@[simp] theorem setCk_errf (x : Byte) (s : State) : (setCk x s).errf = s.errf := rfl
@[simp] theorem setCk_fup (x : Byte) (s : State) : (setCk x s).fup = s.fup := rfl
@[simp] theorem setCk_fc (x : Byte) (s : State) : (setCk x s).fc = s.fc := rfl
@[simp] theorem setCk_ckok (x : Byte) (s : State) : (setCk x s).ckok = s.ckok := rfl
@[simp] theorem setCk_bcdinv (x : Byte) (s : State) : (setCk x s).bcdinv = s.bcdinv := rfl
@[simp] theorem setCk_bcdovf (x : Byte) (s : State) : (setCk x s).bcdovf = s.bcdovf := rfl
@[simp] theorem setCk_fault (x : Byte) (s : State) : (setCk x s).fault = s.fault := rfl
@[simp] theorem setCk_opd (x : Byte) (s : State) : (setCk x s).opd = s.opd := rfl
@[simp] theorem setCk_host (x : Byte) (s : State) : (setCk x s).host = s.host := rfl
@[simp] theorem setCk_resets (x : Byte) (s : State) : (setCk x s).resets = s.resets := rfl

@[simp] theorem setD_fb (x : Byte) (s : State) : (setD x s).fb = s.fb := rfl
@[simp] theorem setD_v (x : Byte) (s : State) : (setD x s).v = s.v := rfl
@[simp] theorem setD_ck (x : Byte) (s : State) : (setD x s).ck = s.ck := rfl
@[simp] theorem setD_d (x : Byte) (s : State) : (setD x s).d = x := rfl
@[simp] theorem setD_dir (x : Byte) (s : State) : (setD x s).dir = s.dir := rfl
@[simp] theorem setD_errf (x : Byte) (s : State) : (setD x s).errf = s.errf := rfl
@[simp] theorem setD_fup (x : Byte) (s : State) : (setD x s).fup = s.fup := rfl
@[simp] theorem setD_fc (x : Byte) (s : State) : (setD x s).fc = s.fc := rfl
@[simp] theorem setD_ckok (x : Byte) (s : State) : (setD x s).ckok = s.ckok := rfl
@[simp] theorem setD_bcdinv (x : Byte) (s : State) : (setD x s).bcdinv = s.bcdinv := rfl
@[simp] theorem setD_bcdovf (x : Byte) (s : State) : (setD x s).bcdovf = s.bcdovf := rfl
@[simp] theorem setD_fault (x : Byte) (s : State) : (setD x s).fault = s.fault := rfl
@[simp] theorem setD_opd (x : Byte) (s : State) : (setD x s).opd = s.opd := rfl
@[simp] theorem setD_host (x : Byte) (s : State) : (setD x s).host = s.host := rfl
@[simp] theorem setD_resets (x : Byte) (s : State) : (setD x s).resets = s.resets := rfl

@[simp] theorem setCkok_fb (x : Bool) (s : State) : (setCkok x s).fb = s.fb := rfl
@[simp] theorem setCkok_v (x : Bool) (s : State) : (setCkok x s).v = s.v := rfl
@[simp] theorem setCkok_ck (x : Bool) (s : State) : (setCkok x s).ck = s.ck := rfl
@[simp] theorem setCkok_d (x : Bool) (s : State) : (setCkok x s).d = s.d := rfl
@[simp] theorem setCkok_dir (x : Bool) (s : State) : (setCkok x s).dir = s.dir := rfl
@[simp] theorem setCkok_errf (x : Bool) (s : State) : (setCkok x s).errf = s.errf := rfl
@[simp] theorem setCkok_fup (x : Bool) (s : State) : (setCkok x s).fup = s.fup := rfl
@[simp] theorem setCkok_fc (x : Bool) (s : State) : (setCkok x s).fc = s.fc := rfl
@[simp] theorem setCkok_ckok (x : Bool) (s : State) : (setCkok x s).ckok = x := rfl
@[simp] theorem setCkok_bcdinv (x : Bool) (s : State) : (setCkok x s).bcdinv = s.bcdinv := rfl
@[simp] theorem setCkok_bcdovf (x : Bool) (s : State) : (setCkok x s).bcdovf = s.bcdovf := rfl
@[simp] theorem setCkok_fault (x : Bool) (s : State) : (setCkok x s).fault = s.fault := rfl
@[simp] theorem setCkok_opd (x : Bool) (s : State) : (setCkok x s).opd = s.opd := rfl
@[simp] theorem setCkok_host (x : Bool) (s : State) : (setCkok x s).host = s.host := rfl
@[simp] theorem setCkok_resets (x : Bool) (s : State) : (setCkok x s).resets = s.resets := rfl

@[simp] theorem setBcdinv_fb (x : Bool) (s : State) : (setBcdinv x s).fb = s.fb := rfl
@[simp] theorem setBcdinv_v (x : Bool) (s : State) : (setBcdinv x s).v = s.v := rfl
@[simp] theorem setBcdinv_ck (x : Bool) (s : State) : (setBcdinv x s).ck = s.ck := rfl
@[simp] theorem setBcdinv_d (x : Bool) (s : State) : (setBcdinv x s).d = s.d := rfl
@[simp] theorem setBcdinv_dir (x : Bool) (s : State) : (setBcdinv x s).dir = s.dir := rfl
@[simp] theorem setBcdinv_errf (x : Bool) (s : State) : (setBcdinv x s).errf = s.errf := rfl
@[simp] theorem setBcdinv_fup (x : Bool) (s : State) : (setBcdinv x s).fup = s.fup := rfl
@[simp] theorem setBcdinv_fc (x : Bool) (s : State) : (setBcdinv x s).fc = s.fc := rfl
@[simp] theorem setBcdinv_ckok (x : Bool) (s : State) : (setBcdinv x s).ckok = s.ckok := rfl
@[simp] theorem setBcdinv_bcdinv (x : Bool) (s : State) : (setBcdinv x s).bcdinv = x := rfl
@[simp] theorem setBcdinv_bcdovf (x : Bool) (s : State) : (setBcdinv x s).bcdovf = s.bcdovf := rfl
@[simp] theorem setBcdinv_fault (x : Bool) (s : State) : (setBcdinv x s).fault = s.fault := rfl
@[simp] theorem setBcdinv_opd (x : Bool) (s : State) : (setBcdinv x s).opd = s.opd := rfl
@[simp] theorem setBcdinv_host (x : Bool) (s : State) : (setBcdinv x s).host = s.host := rfl
@[simp] theorem setBcdinv_resets (x : Bool) (s : State) : (setBcdinv x s).resets = s.resets := rfl

@[simp] theorem setBcdovf_fb (x : Bool) (s : State) : (setBcdovf x s).fb = s.fb := rfl
@[simp] theorem setBcdovf_v (x : Bool) (s : State) : (setBcdovf x s).v = s.v := rfl
@[simp] theorem setBcdovf_ck (x : Bool) (s : State) : (setBcdovf x s).ck = s.ck := rfl
@[simp] theorem setBcdovf_d (x : Bool) (s : State) : (setBcdovf x s).d = s.d := rfl
@[simp] theorem setBcdovf_dir (x : Bool) (s : State) : (setBcdovf x s).dir = s.dir := rfl
@[simp] theorem setBcdovf_errf (x : Bool) (s : State) : (setBcdovf x s).errf = s.errf := rfl
@[simp] theorem setBcdovf_fup (x : Bool) (s : State) : (setBcdovf x s).fup = s.fup := rfl
@[simp] theorem setBcdovf_fc (x : Bool) (s : State) : (setBcdovf x s).fc = s.fc := rfl
@[simp] theorem setBcdovf_ckok (x : Bool) (s : State) : (setBcdovf x s).ckok = s.ckok := rfl
@[simp] theorem setBcdovf_bcdinv (x : Bool) (s : State) : (setBcdovf x s).bcdinv = s.bcdinv := rfl
@[simp] theorem setBcdovf_bcdovf (x : Bool) (s : State) : (setBcdovf x s).bcdovf = x := rfl
@[simp] theorem setBcdovf_fault (x : Bool) (s : State) : (setBcdovf x s).fault = s.fault := rfl
@[simp] theorem setBcdovf_opd (x : Bool) (s : State) : (setBcdovf x s).opd = s.opd := rfl
@[simp] theorem setBcdovf_host (x : Bool) (s : State) : (setBcdovf x s).host = s.host := rfl
@[simp] theorem setBcdovf_resets (x : Bool) (s : State) : (setBcdovf x s).resets = s.resets := rfl

@[simp] theorem setFault_fb (x : BitVec 4) (s : State) : (setFault x s).fb = s.fb := rfl
@[simp] theorem setFault_v (x : BitVec 4) (s : State) : (setFault x s).v = s.v := rfl
@[simp] theorem setFault_ck (x : BitVec 4) (s : State) : (setFault x s).ck = s.ck := rfl
@[simp] theorem setFault_d (x : BitVec 4) (s : State) : (setFault x s).d = s.d := rfl
@[simp] theorem setFault_dir (x : BitVec 4) (s : State) : (setFault x s).dir = s.dir := rfl
@[simp] theorem setFault_errf (x : BitVec 4) (s : State) : (setFault x s).errf = s.errf := rfl
@[simp] theorem setFault_fup (x : BitVec 4) (s : State) : (setFault x s).fup = s.fup := rfl
@[simp] theorem setFault_fc (x : BitVec 4) (s : State) : (setFault x s).fc = s.fc := rfl
@[simp] theorem setFault_ckok (x : BitVec 4) (s : State) : (setFault x s).ckok = s.ckok := rfl
@[simp] theorem setFault_bcdinv (x : BitVec 4) (s : State) : (setFault x s).bcdinv = s.bcdinv := rfl
@[simp] theorem setFault_bcdovf (x : BitVec 4) (s : State) : (setFault x s).bcdovf = s.bcdovf := rfl
@[simp] theorem setFault_fault (x : BitVec 4) (s : State) : (setFault x s).fault = x := rfl
@[simp] theorem setFault_opd (x : BitVec 4) (s : State) : (setFault x s).opd = s.opd := rfl
@[simp] theorem setFault_host (x : BitVec 4) (s : State) : (setFault x s).host = s.host := rfl
@[simp] theorem setFault_resets (x : BitVec 4) (s : State) : (setFault x s).resets = s.resets := rfl

@[simp] theorem setFb_fb (m : Memory) (s : State) : (setFb m s).fb = m := rfl
@[simp] theorem setFb_v (m : Memory) (s : State) : (setFb m s).v = s.v := rfl
@[simp] theorem setFb_ck (m : Memory) (s : State) : (setFb m s).ck = s.ck := rfl
@[simp] theorem setFb_d (m : Memory) (s : State) : (setFb m s).d = s.d := rfl
@[simp] theorem setFb_dir (m : Memory) (s : State) : (setFb m s).dir = s.dir := rfl
@[simp] theorem setFb_errf (m : Memory) (s : State) : (setFb m s).errf = s.errf := rfl
@[simp] theorem setFb_fup (m : Memory) (s : State) : (setFb m s).fup = s.fup := rfl
@[simp] theorem setFb_fc (m : Memory) (s : State) : (setFb m s).fc = s.fc := rfl
@[simp] theorem setFb_ckok (m : Memory) (s : State) : (setFb m s).ckok = s.ckok := rfl
@[simp] theorem setFb_bcdinv (m : Memory) (s : State) : (setFb m s).bcdinv = s.bcdinv := rfl
@[simp] theorem setFb_bcdovf (m : Memory) (s : State) : (setFb m s).bcdovf = s.bcdovf := rfl
@[simp] theorem setFb_fault (m : Memory) (s : State) : (setFb m s).fault = s.fault := rfl
@[simp] theorem setFb_opd (m : Memory) (s : State) : (setFb m s).opd = s.opd := rfl
@[simp] theorem setFb_host (m : Memory) (s : State) : (setFb m s).host = s.host := rfl
@[simp] theorem setFb_resets (m : Memory) (s : State) : (setFb m s).resets = s.resets := rfl

@[simp] theorem setOpd_fb (x : Value) (s : State) : (setOpd x s).fb = s.fb := rfl
@[simp] theorem setOpd_v (x : Value) (s : State) : (setOpd x s).v = s.v := rfl
@[simp] theorem setOpd_ck (x : Value) (s : State) : (setOpd x s).ck = s.ck := rfl
@[simp] theorem setOpd_d (x : Value) (s : State) : (setOpd x s).d = s.d := rfl
@[simp] theorem setOpd_dir (x : Value) (s : State) : (setOpd x s).dir = s.dir := rfl
@[simp] theorem setOpd_errf (x : Value) (s : State) : (setOpd x s).errf = s.errf := rfl
@[simp] theorem setOpd_fup (x : Value) (s : State) : (setOpd x s).fup = s.fup := rfl
@[simp] theorem setOpd_fc (x : Value) (s : State) : (setOpd x s).fc = s.fc := rfl
@[simp] theorem setOpd_ckok (x : Value) (s : State) : (setOpd x s).ckok = s.ckok := rfl
@[simp] theorem setOpd_bcdinv (x : Value) (s : State) : (setOpd x s).bcdinv = s.bcdinv := rfl
@[simp] theorem setOpd_bcdovf (x : Value) (s : State) : (setOpd x s).bcdovf = s.bcdovf := rfl
@[simp] theorem setOpd_fault (x : Value) (s : State) : (setOpd x s).fault = s.fault := rfl
@[simp] theorem setOpd_opd (x : Value) (s : State) : (setOpd x s).opd = x := rfl
@[simp] theorem setOpd_host (x : Value) (s : State) : (setOpd x s).host = s.host := rfl
@[simp] theorem setOpd_resets (x : Value) (s : State) : (setOpd x s).resets = s.resets := rfl

@[simp] theorem setHost_fb (ms : List HostMove) (s : State) : (setHost ms s).fb = s.fb := rfl
@[simp] theorem setHost_v (ms : List HostMove) (s : State) : (setHost ms s).v = s.v := rfl
@[simp] theorem setHost_ck (ms : List HostMove) (s : State) : (setHost ms s).ck = s.ck := rfl
@[simp] theorem setHost_d (ms : List HostMove) (s : State) : (setHost ms s).d = s.d := rfl
@[simp] theorem setHost_dir (ms : List HostMove) (s : State) : (setHost ms s).dir = s.dir := rfl
@[simp] theorem setHost_errf (ms : List HostMove) (s : State) : (setHost ms s).errf = s.errf := rfl
@[simp] theorem setHost_fup (ms : List HostMove) (s : State) : (setHost ms s).fup = s.fup := rfl
@[simp] theorem setHost_fc (ms : List HostMove) (s : State) : (setHost ms s).fc = s.fc := rfl
@[simp] theorem setHost_ckok (ms : List HostMove) (s : State) : (setHost ms s).ckok = s.ckok := rfl
@[simp] theorem setHost_bcdinv (ms : List HostMove) (s : State) : (setHost ms s).bcdinv = s.bcdinv := rfl
@[simp] theorem setHost_bcdovf (ms : List HostMove) (s : State) : (setHost ms s).bcdovf = s.bcdovf := rfl
@[simp] theorem setHost_fault (ms : List HostMove) (s : State) : (setHost ms s).fault = s.fault := rfl
@[simp] theorem setHost_opd (ms : List HostMove) (s : State) : (setHost ms s).opd = s.opd := rfl
@[simp] theorem setHost_host (ms : List HostMove) (s : State) : (setHost ms s).host = ms := rfl
@[simp] theorem setHost_resets (ms : List HostMove) (s : State) : (setHost ms s).resets = s.resets := rfl

variable (dir errf fup : Bool) (fc : BitVec 5)

@[simp] theorem setControl_fb (s : State) : (setControl dir errf fup fc s).fb = s.fb := rfl
@[simp] theorem setControl_v (s : State) : (setControl dir errf fup fc s).v = s.v := rfl
@[simp] theorem setControl_ck (s : State) : (setControl dir errf fup fc s).ck = s.ck := rfl
@[simp] theorem setControl_d (s : State) : (setControl dir errf fup fc s).d = s.d := rfl
@[simp] theorem setControl_dir (s : State) : (setControl dir errf fup fc s).dir = dir := rfl
@[simp] theorem setControl_errf (s : State) : (setControl dir errf fup fc s).errf = errf := rfl
@[simp] theorem setControl_fup (s : State) : (setControl dir errf fup fc s).fup = fup := rfl
@[simp] theorem setControl_fc (s : State) : (setControl dir errf fup fc s).fc = fc := rfl
@[simp] theorem setControl_ckok (s : State) : (setControl dir errf fup fc s).ckok = s.ckok := rfl
@[simp] theorem setControl_bcdinv (s : State) : (setControl dir errf fup fc s).bcdinv = s.bcdinv := rfl
@[simp] theorem setControl_bcdovf (s : State) : (setControl dir errf fup fc s).bcdovf = s.bcdovf := rfl
@[simp] theorem setControl_fault (s : State) : (setControl dir errf fup fc s).fault = s.fault := rfl
@[simp] theorem setControl_opd (s : State) : (setControl dir errf fup fc s).opd = s.opd := rfl
@[simp] theorem setControl_host (s : State) : (setControl dir errf fup fc s).host = s.host := rfl
@[simp] theorem setControl_resets (s : State) : (setControl dir errf fup fc s).resets = s.resets := rfl

@[simp] theorem resetBlock_fb (s : State) : (resetBlock s).fb = [] := rfl
@[simp] theorem resetBlock_v (s : State) : (resetBlock s).v = 0#64 := rfl
@[simp] theorem resetBlock_ck (s : State) : (resetBlock s).ck = 0#8 := rfl
@[simp] theorem resetBlock_d (s : State) : (resetBlock s).d = 0#8 := rfl
@[simp] theorem resetBlock_dir (s : State) : (resetBlock s).dir = false := rfl
@[simp] theorem resetBlock_errf (s : State) : (resetBlock s).errf = false := rfl
@[simp] theorem resetBlock_fup (s : State) : (resetBlock s).fup = false := rfl
@[simp] theorem resetBlock_fc (s : State) : (resetBlock s).fc = 0#5 := rfl
@[simp] theorem resetBlock_ckok (s : State) : (resetBlock s).ckok = false := rfl
@[simp] theorem resetBlock_bcdinv (s : State) : (resetBlock s).bcdinv = false := rfl
@[simp] theorem resetBlock_bcdovf (s : State) : (resetBlock s).bcdovf = false := rfl
@[simp] theorem resetBlock_fault (s : State) : (resetBlock s).fault = 0#4 := rfl
@[simp] theorem resetBlock_opd (s : State) : (resetBlock s).opd = s.opd := rfl
@[simp] theorem resetBlock_host (s : State) : (resetBlock s).host = s.host := rfl
@[simp] theorem resetBlock_resets (s : State) : (resetBlock s).resets = s.resets + 1 := rfl

@[simp] theorem fbWrite_fb (i : Nat) (x : Byte) (s : State) : (fbWrite i x s).fb = putCell s.fb i x := rfl
@[simp] theorem fbWrite_v (i : Nat) (x : Byte) (s : State) : (fbWrite i x s).v = s.v := rfl
@[simp] theorem fbWrite_ck (i : Nat) (x : Byte) (s : State) : (fbWrite i x s).ck = s.ck := rfl
@[simp] theorem fbWrite_d (i : Nat) (x : Byte) (s : State) : (fbWrite i x s).d = s.d := rfl
@[simp] theorem fbWrite_dir (i : Nat) (x : Byte) (s : State) : (fbWrite i x s).dir = s.dir := rfl
@[simp] theorem fbWrite_errf (i : Nat) (x : Byte) (s : State) : (fbWrite i x s).errf = s.errf := rfl
@[simp] theorem fbWrite_fup (i : Nat) (x : Byte) (s : State) : (fbWrite i x s).fup = s.fup := rfl
@[simp] theorem fbWrite_fc (i : Nat) (x : Byte) (s : State) : (fbWrite i x s).fc = s.fc := rfl
@[simp] theorem fbWrite_ckok (i : Nat) (x : Byte) (s : State) : (fbWrite i x s).ckok = s.ckok := rfl
@[simp] theorem fbWrite_bcdinv (i : Nat) (x : Byte) (s : State) : (fbWrite i x s).bcdinv = s.bcdinv := rfl
@[simp] theorem fbWrite_bcdovf (i : Nat) (x : Byte) (s : State) : (fbWrite i x s).bcdovf = s.bcdovf := rfl
@[simp] theorem fbWrite_fault (i : Nat) (x : Byte) (s : State) : (fbWrite i x s).fault = s.fault := rfl
@[simp] theorem fbWrite_opd (i : Nat) (x : Byte) (s : State) : (fbWrite i x s).opd = s.opd := rfl
@[simp] theorem fbWrite_host (i : Nat) (x : Byte) (s : State) : (fbWrite i x s).host = s.host := rfl
@[simp] theorem fbWrite_resets (i : Nat) (x : Byte) (s : State) : (fbWrite i x s).resets = s.resets := rfl

end Sys2Proof.Machine
end

