-- ==== Sys2Proof/Laws/Memory.lean ====
section
/-! SUPPORT. What reading and writing the frame buffer do: read after write, the canonical form kept, and the bytes a
command's range gives and takes. -/

namespace Sys2Proof.Machine

/-! ### Cells -/

theorem cellAt_putCell (m : Memory) (i j : Nat) (x : Byte) :
    cellAt (putCell m i x) j = if j = i then some x else cellAt m j := by
  induction m with
  | nil => simp [putCell, cellAt]
  | cons p m ih =>
    obtain ⟨k, y⟩ := p
    simp only [putCell]
    split
    · simp [cellAt]
    · split
      · subst_vars
        by_cases h : j = k <;> simp [cellAt, h]
      · by_cases h : j = k
        · subst h
          simp [cellAt, Ne.symm (by assumption : ¬ i = j)]
        · simp [cellAt, h, ih]

theorem wfFrom_of_le {m : Memory} {lo lo' : Nat} (h : Memory.wfFrom lo m = true) (hle : lo' ≤ lo) :
    Memory.wfFrom lo' m = true := by
  cases m with
  | nil => rfl
  | cons p m =>
    simp only [Memory.wfFrom, Bool.and_eq_true, decide_eq_true_eq] at h ⊢
    exact ⟨⟨by omega, h.1.2⟩, h.2⟩

theorem wfFrom_putCell {m : Memory} {lo i : Nat} (x : Byte) (h : Memory.wfFrom lo m = true) (hlo : lo ≤ i)
    (hi : i < Config.fbSize) : Memory.wfFrom lo (putCell m i x) = true := by
  induction m generalizing lo with
  | nil => simp [putCell, Memory.wfFrom, hlo, hi]
  | cons p m ih =>
    obtain ⟨k, y⟩ := p
    simp only [Memory.wfFrom, Bool.and_eq_true, decide_eq_true_eq] at h
    obtain ⟨⟨h1, h2⟩, h3⟩ := h
    simp only [putCell]
    split
    · simp only [Memory.wfFrom, Bool.and_eq_true, decide_eq_true_eq]
      exact ⟨⟨hlo, hi⟩, ⟨by omega, h2⟩, h3⟩
    · split
      · subst_vars
        simp only [Memory.wfFrom, Bool.and_eq_true, decide_eq_true_eq]
        exact ⟨⟨h1, h2⟩, h3⟩
      · simp only [Memory.wfFrom, Bool.and_eq_true, decide_eq_true_eq]
        exact ⟨⟨h1, h2⟩, ih h3 (by omega)⟩

/-- Writing inside the buffer keeps the canonical form. -/
theorem wf_fbWrite {s : State} {i : Nat} (x : Byte) (h : Memory.wf s.fb = true) (hi : i < Config.fbSize) :
    Memory.wf (fbWrite i x s).fb = true :=
  wfFrom_putCell x h (Nat.zero_le i) hi

theorem wf_memWrite {s : State} {a : Nat} {xs : List Byte} (h : Memory.wf s.fb = true)
    (hi : a + xs.length ≤ Config.fbSize) : Memory.wf (memWrite a xs s).fb = true := by
  induction xs generalizing a s with
  | nil => exact h
  | cons x xs ih =>
    simp only [List.length_cons] at hi
    exact ih (wf_fbWrite x h (by omega)) (by omega)

theorem wf_reset : Memory.wf State.reset.fb = true := rfl

/-- Canonical memories with the same listed bytes are equal data. -/
theorem memory_ext {m m' : Memory} (h : Memory.wf m = true) (h' : Memory.wf m' = true)
    (e : ∀ i, cellAt m i = cellAt m' i) : m = m' := by
  suffices H : ∀ lo, Memory.wfFrom lo m = true → Memory.wfFrom lo m' = true → m = m' from H 0 h h'
  have below : ∀ (m : Memory) lo i, Memory.wfFrom lo m = true → i < lo → cellAt m i = none := by
    intro m
    induction m with
    | nil => intros; rfl
    | cons p m ih =>
      intro lo i hw hi
      simp only [Memory.wfFrom, Bool.and_eq_true, decide_eq_true_eq] at hw
      simp only [cellAt]
      rw [if_neg (by omega)]
      exact ih _ _ hw.2 (by omega)
  clear h h'
  induction m generalizing m' with
  | nil =>
    intro lo _ _
    cases m' with
    | nil => rfl
    | cons p m' => simpa [cellAt] using e p.1
  | cons p m ih =>
    intro lo hw hw'
    cases m' with
    | nil => simpa [cellAt] using e p.1
    | cons q m' =>
      obtain ⟨k, x⟩ := p
      obtain ⟨l, y⟩ := q
      simp only [Memory.wfFrom, Bool.and_eq_true, decide_eq_true_eq] at hw hw'
      have hkl : k = l := by
        rcases Nat.lt_trichotomy k l with hlt | heq | hgt
        · have := e k
          simp only [cellAt, if_neg (by omega : ¬ k = l), if_true] at this
          rw [below m' _ _ hw'.2 (by omega)] at this
          simp at this
        · exact heq
        · have := e l
          simp only [cellAt, if_neg (by omega : ¬ l = k), if_true] at this
          rw [below m _ _ hw.2 (by omega)] at this
          simp at this
      subst hkl
      have hxy : x = y := by simpa [cellAt] using e k
      subst hxy
      congr 1
      refine ih (fun i => ?_) (k + 1) hw.2 hw'.2
      by_cases hi : i = k
      · subst hi
        rw [below m _ _ hw.2 (by omega), below m' _ _ hw'.2 (by omega)]
      · simpa [cellAt, hi] using e i

/-! ### Reading and writing one byte -/

/-- Read after write: the byte written at its own place, the old byte elsewhere (R57). -/
theorem fbRead_fbWrite (s : State) (i j : Nat) (x : Byte) :
    fbRead (fbWrite i x s) j = if j = i then x else fbRead s j := by
  simp only [fbRead, fbWrite_fb, cellAt_putCell, unlistedByte, fbWrite_resets]
  split <;> rfl

/-- A read depends on the listed cells and on the reset count alone. -/
theorem fbRead_congr {s t : State} (hf : t.fb = s.fb) (hr : t.resets = s.resets) (i : Nat) :
    fbRead t i = fbRead s i := by
  simp [fbRead, unlistedByte, hf, hr]

@[simp] theorem fbRead_setV (x : Value) (s : State) (i : Nat) : fbRead (setV x s) i = fbRead s i := rfl
@[simp] theorem fbRead_setCk (x : Byte) (s : State) (i : Nat) : fbRead (setCk x s) i = fbRead s i := rfl
@[simp] theorem fbRead_setD (x : Byte) (s : State) (i : Nat) : fbRead (setD x s) i = fbRead s i := rfl
@[simp] theorem fbRead_setCkok (x : Bool) (s : State) (i : Nat) : fbRead (setCkok x s) i = fbRead s i := rfl
@[simp] theorem fbRead_setBcdinv (x : Bool) (s : State) (i : Nat) : fbRead (setBcdinv x s) i = fbRead s i := rfl
@[simp] theorem fbRead_setBcdovf (x : Bool) (s : State) (i : Nat) : fbRead (setBcdovf x s) i = fbRead s i := rfl
@[simp] theorem fbRead_setControl (p q r : Bool) (c : BitVec 5) (s : State) (i : Nat) :
    fbRead (setControl p q r c s) i = fbRead s i := rfl
@[simp] theorem fbRead_setFault (x : BitVec 4) (s : State) (i : Nat) : fbRead (setFault x s) i = fbRead s i := rfl
@[simp] theorem fbRead_setOpd (x : Value) (s : State) (i : Nat) : fbRead (setOpd x s) i = fbRead s i := rfl
@[simp] theorem fbRead_setHost (ms : List HostMove) (s : State) (i : Nat) :
    fbRead (setHost ms s) i = fbRead s i := rfl

/-- After a reset every byte is the free value of that reset (R201). -/
@[simp] theorem fbRead_resetBlock (s : State) (i : Nat) :
    fbRead (resetBlock s) i = Config.fbReset (s.resets + 1) i := rfl

/-! ### Ranges -/

@[simp] theorem memRead_length (s : State) (a n : Nat) : (memRead s a n).length = n := by
  induction n generalizing a with
  | zero => rfl
  | succ n ih => simp [memRead, ih]

/-- The byte `j` of a range. -/
@[simp] theorem memRead_getElem (s : State) (a n j : Nat) (h : j < (memRead s a n).length) :
    (memRead s a n)[j] = fbRead s (a + j) := by
  induction n generalizing a j with
  | zero => simp at h
  | succ n ih =>
    cases j with
    | zero => simp [memRead]
    | succ j =>
      simp only [memRead, List.getElem_cons_succ]
      rw [ih]
      congr 1
      omega

/-- A range as a map over its offsets. -/
theorem memRead_eq_map (s : State) (a n : Nat) :
    memRead s a n = (List.range n).map (fun j => fbRead s (a + j)) := by
  apply List.ext_getElem <;> simp

theorem memRead_congr {s t : State} {a n : Nat} (h : ∀ j, j < n → fbRead t (a + j) = fbRead s (a + j)) :
    memRead t a n = memRead s a n := by
  apply List.ext_getElem
  · simp
  · intro j hj _
    simpa using h j (by simpa using hj)

/-- A range split in two. -/
theorem memRead_append (s : State) (a k m : Nat) :
    memRead s a (k + m) = memRead s a k ++ memRead s (a + k) m := by
  apply List.ext_getElem
  · simp
  · intro j h1 h2
    rw [memRead_getElem, List.getElem_append]
    split
    · simp
    · rename_i h
      simp only [memRead_length] at h
      rw [memRead_getElem]
      congr 1
      simp
      omega

/-- What a stretch of bytes written leaves at every index. -/
theorem fbRead_memWrite (a : Nat) (xs : List Byte) (s : State) (i : Nat) :
    fbRead (memWrite a xs s) i = if h : a ≤ i ∧ i < a + xs.length then xs[i - a] else fbRead s i := by
  induction xs generalizing a s with
  | nil =>
    rw [dif_neg (by simp)]
    rfl
  | cons x xs ih =>
    simp only [memWrite, ih, fbRead_fbWrite, List.length_cons]
    by_cases h0 : i = a
    · subst h0
      rw [dif_neg (by omega), dif_pos (by omega)]
      simp
    · by_cases h1 : a + 1 ≤ i ∧ i < a + 1 + xs.length
      · rw [dif_pos h1, dif_pos (by omega)]
        have e : i - a = (i - (a + 1)) + 1 := by omega
        simp only [e, List.getElem_cons_succ]
      · rw [dif_neg h1, dif_neg (by omega), if_neg h0]

theorem fbRead_memWrite_inside {a : Nat} {xs : List Byte} (s : State) {j : Nat} (h : j < xs.length) :
    fbRead (memWrite a xs s) (a + j) = xs[j] := by
  rw [fbRead_memWrite, dif_pos (by omega)]
  simp

theorem fbRead_memWrite_outside {a : Nat} {xs : List Byte} (s : State) {i : Nat} (h : i < a ∨ a + xs.length ≤ i) :
    fbRead (memWrite a xs s) i = fbRead s i := by
  rw [fbRead_memWrite, dif_neg (by omega)]

/-- Reading back what was written. -/
theorem memRead_memWrite (a : Nat) (xs : List Byte) (s : State) : memRead (memWrite a xs s) a xs.length = xs := by
  apply List.ext_getElem
  · simp
  · intro j h1 h2
    rw [memRead_getElem, fbRead_memWrite_inside]

/-- A stretch of bytes written changes the frame buffer alone. -/
theorem memWrite_frame (a : Nat) (xs : List Byte) (s : State) :
    memWrite a xs s = { s with fb := (memWrite a xs s).fb } := by
  induction xs generalizing a s with
  | nil => rfl
  | cons x xs ih =>
    simp only [memWrite]
    rw [ih]
    simp

@[simp] theorem memWrite_v (a : Nat) (xs : List Byte) (s : State) : (memWrite a xs s).v = s.v := by
  rw [memWrite_frame]
@[simp] theorem memWrite_ck (a : Nat) (xs : List Byte) (s : State) : (memWrite a xs s).ck = s.ck := by
  rw [memWrite_frame]
@[simp] theorem memWrite_d (a : Nat) (xs : List Byte) (s : State) : (memWrite a xs s).d = s.d := by
  rw [memWrite_frame]
@[simp] theorem memWrite_dir (a : Nat) (xs : List Byte) (s : State) : (memWrite a xs s).dir = s.dir := by
  rw [memWrite_frame]
@[simp] theorem memWrite_errf (a : Nat) (xs : List Byte) (s : State) : (memWrite a xs s).errf = s.errf := by
  rw [memWrite_frame]
@[simp] theorem memWrite_fup (a : Nat) (xs : List Byte) (s : State) : (memWrite a xs s).fup = s.fup := by
  rw [memWrite_frame]
@[simp] theorem memWrite_fc (a : Nat) (xs : List Byte) (s : State) : (memWrite a xs s).fc = s.fc := by
  rw [memWrite_frame]
@[simp] theorem memWrite_ckok (a : Nat) (xs : List Byte) (s : State) : (memWrite a xs s).ckok = s.ckok := by
  rw [memWrite_frame]
@[simp] theorem memWrite_bcdinv (a : Nat) (xs : List Byte) (s : State) : (memWrite a xs s).bcdinv = s.bcdinv := by
  rw [memWrite_frame]
@[simp] theorem memWrite_bcdovf (a : Nat) (xs : List Byte) (s : State) : (memWrite a xs s).bcdovf = s.bcdovf := by
  rw [memWrite_frame]
@[simp] theorem memWrite_fault (a : Nat) (xs : List Byte) (s : State) : (memWrite a xs s).fault = s.fault := by
  rw [memWrite_frame]
@[simp] theorem memWrite_opd (a : Nat) (xs : List Byte) (s : State) : (memWrite a xs s).opd = s.opd := by
  rw [memWrite_frame]
@[simp] theorem memWrite_host (a : Nat) (xs : List Byte) (s : State) : (memWrite a xs s).host = s.host := by
  rw [memWrite_frame]
@[simp] theorem memWrite_resets (a : Nat) (xs : List Byte) (s : State) : (memWrite a xs s).resets = s.resets := by
  rw [memWrite_frame]

end Sys2Proof.Machine
end

