-- ==== Sys2Proof/Laws/Ops.lean ====
section
/-! SUPPORT. What the shared operations can do, said once: taking a fault, the halt, the range rule. -/

namespace Sys2Proof.Machine

theorem raiseFault_running {f : Fault} {s : State} (h : s.fault = 0#4) : raiseFault f s = setFault (faultCode f) s := by
  simp [raiseFault, h]

theorem raiseFault_halted {f : Fault} {s : State} (h : s.fault ≠ 0#4) : raiseFault f s = s := by
  simp [raiseFault, h]

/-- Taking a fault changes FAULT alone (R183). -/
theorem raiseFault_frame (f : Fault) (s : State) : raiseFault f s = { s with fault := (raiseFault f s).fault } := by
  unfold raiseFault
  split <;> simp [setFault]

theorem faultCode_le (f : Fault) : (faultCode f).toNat ≤ 2 := by
  cases f <;> decide

theorem whileRunning_running {e : State → State} {s : State} (h : s.fault = 0#4) :
    whileRunning e s = .next (e s) := by
  simp [whileRunning, h]

theorem whileRunning_halted {e : State → State} {s : State} (h : s.fault ≠ 0#4) : whileRunning e s = .next s := by
  simp [whileRunning, h]

/-- A command answers a next state: the effect's on a running block, the same state on a halted one (R184). -/
theorem whileRunning_next {e : State → State} {s t : State} (h : whileRunning e s = .next t) :
    (s.fault = 0#4 ∧ t = e s) ∨ (s.fault ≠ 0#4 ∧ t = s) := by
  by_cases hf : s.fault = 0#4
  · rw [whileRunning_running hf] at h
    exact .inl ⟨hf, (Host.Outcome.next.inj h).symm⟩
  · rw [whileRunning_halted hf] at h
    exact .inr ⟨hf, (Host.Outcome.next.inj h).symm⟩

theorem withinBuffer_inside {a len : Nat} {e : State → State} {s : State} (h : a + len ≤ Config.fbSize) :
    withinBuffer a len e s = e s := if_pos h

theorem withinBuffer_outside {a len : Nat} {e : State → State} {s : State} (h : Config.fbSize < a + len) :
    withinBuffer a len e s = raiseFault .range s := if_neg (by omega)

theorem next_inj {s t : State} (h : (Host.Outcome.next s : Host.Outcome State Fault Refusal) = .next t) : s = t := by
  cases h
  rfl

/-- A range command on a running block, the extent inside the buffer. -/
theorem range_inside {a len : Nat} {e : State → State} {s : State} (h : s.fault = 0#4) (hl : a + len ≤ 256) :
    whileRunning (withinBuffer a len e) s = .next (e s) := by
  rw [whileRunning_running h, withinBuffer_inside hl]

/-- A range command on a running block, the extent outside the buffer: `F_RANGE` and nothing else (R182, R183). -/
theorem range_outside {a len : Nat} {e : State → State} {s : State} (h : s.fault = 0#4) (hl : 256 < a + len) :
    whileRunning (withinBuffer a len e) s = .next { s with fault := 2#4 } := by
  rw [whileRunning_running h, withinBuffer_outside hl, raiseFault_running h]
  rfl

/-- Everything a range command can do. -/
theorem range_next {a len : Nat} {e : State → State} {s t : State}
    (h : whileRunning (withinBuffer a len e) s = .next t) :
    (s.fault = 0#4 ∧ a + len ≤ 256 ∧ t = e s) ∨
    (s.fault = 0#4 ∧ 256 < a + len ∧ t = { s with fault := 2#4 }) ∨ (s.fault ≠ 0#4 ∧ t = s) := by
  by_cases hf : s.fault = 0#4
  · by_cases hl : a + len ≤ 256
    · rw [range_inside hf hl] at h
      exact .inl ⟨hf, hl, (next_inj h).symm⟩
    · rw [range_outside hf (by omega)] at h
      exact .inr (.inl ⟨hf, by omega, (next_inj h).symm⟩)
  · rw [whileRunning_halted hf] at h
    exact .inr (.inr ⟨hf, (next_inj h).symm⟩)

/-- Every command answers a next state, on a running block and on a halted one (R205). -/
theorem exec_answers_next (i : Instr) (s : State) : ∃ t, exec i s = .next t := by
  cases i <;> exact ⟨_, rfl⟩

/-- A halted block changes nothing whatever the command (R184). -/
theorem exec_halted (i : Instr) {s : State} (h : s.fault ≠ 0#4) : exec i s = .next s := by
  cases i <;> exact whileRunning_halted h

end Sys2Proof.Machine
end

