-- ==== Sys2Proof/Laws/Units.lean ====
section
/-! SUPPORT. What the units compute, in the terms of Safety.lean: sums, BCD values, mapped ranges. -/

namespace Sys2Proof.Machine

/-! ### Checksum -/

theorem rangeSum_eq_sum (s : State) (a n : Nat) : ((memRead s a n).map BitVec.toNat).sum = rangeSum s a n := by
  unfold rangeSum
  induction n generalizing a with
  | zero => rfl
  | succ n ih =>
    rw [Finset.sum_range_succ', memRead, List.map_cons, List.sum_cons, ih, Nat.add_comm]
    congr 1
    apply Finset.sum_congr rfl
    intro j _
    congr 2
    omega

/-- The checksum of a range is the sum of its bytes modulo 256. -/
theorem sum8_memRead (s : State) (a n : Nat) : sum8 (memRead s a n) = BitVec.ofNat 8 (rangeSum s a n) := by
  rw [sum8, rangeSum_eq_sum]

theorem sum8_append (xs ys : List Byte) : sum8 (xs ++ ys) = sum8 xs + sum8 ys := by
  simp [sum8, BitVec.ofNat_add]

/-! ### BCD -/

/-- The byte `j` of an encoding. -/
theorem encodeBCD_getElem? (v k j : Nat) (h : j < k) :
    (encodeBCD v k)[j]? = some (bcdByte (v / 100 ^ (k - 1 - j) % 100)) := by
  induction k generalizing v with
  | zero => omega
  | succ k ih =>
    rw [encodeBCD_succ]
    by_cases hj : j < k
    · rw [List.getElem?_append_left (by simpa using hj), ih _ hj, Nat.div_div_eq_div_mul, ← pow_succ']
      congr 5; omega
    · have : j = k := by omega
      subst this
      rw [List.getElem?_append_right (by simp)]; simp

theorem nibbles_toNat : ∀ x : Byte, highNibble x = x.toNat / 16 ∧ lowNibble x = x.toNat % 16 := by decide

theorem isBcdByte_iff (x : Byte) : isBcdByte x = true ↔ x.toNat / 16 ≤ 9 ∧ x.toNat % 16 ≤ 9 := by
  simp [isBcdByte, nibbles_toNat]

theorem decodeLoop_val (xs : List Byte) (v : Nat) : decodeLoop v xs = v * 100 ^ xs.length + decodeLoop 0 xs := by
  induction xs generalizing v with
  | nil => simp [decodeLoop]
  | cons x xs ih =>
    simp only [decodeLoop, List.length_cons]
    rw [ih, ih (v := 0*100 + _ + _)]; ring

theorem decodeLoop_memRead (s : State) (a m : Nat) : decodeLoop 0 (memRead s a m) = tableValue s a m := by
  unfold tableValue
  induction m generalizing a with
  | zero => rfl
  | succ m ih =>
    rw [memRead, decodeLoop, decodeLoop_val, ih, Finset.sum_range_succ', memRead_length, Nat.add_comm]
    congr 1
    · apply Finset.sum_congr rfl; intro j hj; rw [show a + 1 + j = a + (j+1) by omega]; congr 2
      omega
    · simp [pairValue, nibbles_toNat]

theorem decodeLoop_reverse (s : State) (a m : Nat) : decodeLoop 0 (memRead s a m).reverse = wireValue s a m := by
  unfold wireValue
  induction m generalizing a with
  | zero => rfl
  | succ m ih =>
    rw [memRead, List.reverse_cons, decodeLoop_append, ih, Finset.sum_range_succ']
    simp only [decodeLoop, pairValue, nibbles_toNat, pow_zero, mul_one, Nat.add_zero, Finset.sum_mul]
    rw [Nat.add_assoc]
    congr 1
    apply Finset.sum_congr rfl; intro j hj; rw [show a + 1 + j = a + (j+1) by omega]; ring

theorem all_isBcdByte_iff (s : State) (a m : Nat) : (memRead s a m).all isBcdByte = true ↔ AllBcd s a (a+m) := by
  rw [List.all_eq_true]
  constructor
  · intro h k h1 h2
    rw [← isBcdByte_iff]; apply h
    rw [List.mem_iff_getElem]
    exact ⟨k - a, by simp; omega, by simp; congr 1; omega⟩
  · intro h x hx
    obtain ⟨j, hj, rfl⟩ := List.mem_iff_getElem.mp hx
    simp at hj
    rw [isBcdByte_iff, memRead_getElem]; exact h _ (by omega) (by omega)

theorem decodeWindow_memRead (s : State) (a len k : Nat) : decodeWindow (memRead s a len) k = memRead s (a + len - min len k) (min len k) := by
  unfold decodeWindow
  apply List.ext_getElem
  · simp; omega
  · intro i h1 h2; simp at h1 h2 ⊢; congr 1; omega

theorem decodeWindow_reverse (s : State) (a len k : Nat) : decodeWindow (memRead s a len).reverse k = (memRead s a (min len k)).reverse := by
  unfold decodeWindow
  apply List.ext_getElem
  · simp; omega
  · intro i h1 h2; simp at h1 h2 ⊢; congr 1; omega

/-! ### Obfuscation -/

/-- What a mapped range leaves at every index. -/
theorem fbRead_mapRange (f : Byte → Byte) (a n : Byte) (s : State) (k : Nat) :
    fbRead (mapRange f a n s) k =
      if a.toNat ≤ k ∧ k < a.toNat + n.toNat then f (fbRead s k) else fbRead s k := by
  unfold mapRange rangeBytes indexOf countOf
  rw [fbRead_memWrite]
  simp only [List.length_map, memRead_length]
  split
  · rename_i hk; simp [show a.toNat + (k - a.toNat) = k by omega]
  · rfl

end Sys2Proof.Machine
end

