-- ==== Sys2Proof/Laws/Transaction.lean ====
section
/-! SUPPORT. What one step can do: the host's next move taken, and the block's answer; lists of moves; and the
host's length test. -/

namespace Sys2Proof.Machine

theorem step_command {s : State} {cmd : CmdWord} {opd : Value} {rest : List HostMove}
    (h : s.host = .command cmd opd :: rest) : step s = runWord cmd { s with host := rest, opd := opd } := by
  simp [step, nextMove, h, takeMove, setOpd, setHost]

theorem step_reset {s : State} {rest : List HostMove} (h : s.host = .reset :: rest) :
    step s = .next (resetBlock { s with host := rest }) := by
  simp [step, nextMove, h, takeMove, setHost]

theorem step_idle {s : State} (h : s.host = []) : step s = .next s := by
  simp [step, nextMove, h]

/-- No command touches the model's own fields: the bus, the host's list, the count of resets. -/
theorem exec_input {i : Instr} {s t : State} (h : exec i s = .next t) :
    t.host = s.host ∧ t.opd = s.opd ∧ t.resets = s.resets := by
  cases i
  all_goals first
    | (rcases whileRunning_next h with ⟨h, rfl⟩ | ⟨h, rfl⟩ <;> exact ⟨rfl, rfl, rfl⟩)
    | (rcases range_next h with ⟨h1, h2, rfl⟩ | ⟨h1, h2, rfl⟩ | ⟨h1, rfl⟩ <;>
        first
        | exact ⟨rfl, rfl, rfl⟩
        | (simp [storeEncoded, mapRange]; done)
        | (unfold storeDecoded; split <;> exact ⟨rfl, rfl, rfl⟩))

/-- Moves made after moves. -/
theorem takeMoves_append {ms ms' : List HostMove} {s t : State} (h : takeMoves ms s = .next t) :
    takeMoves (ms ++ ms') s = takeMoves ms' t := by
  induction ms generalizing s with
  | nil =>
    cases h
    rfl
  | cons m ms ih =>
    simp only [takeMoves, List.cons_append] at h ⊢
    split at h
    · exact ih h
    · cases h
    · cases h

@[simp] theorem commandMoves_nil : commandMoves [] = [] := rfl

@[simp] theorem commandMoves_cons (c : CmdWord × Value) (cs : List (CmdWord × Value)) :
    commandMoves (c :: cs) = .command c.1 c.2 :: commandMoves cs := rfl

@[simp] theorem commandMoves_append (cs ds : List (CmdWord × Value)) :
    commandMoves (cs ++ ds) = commandMoves cs ++ commandMoves ds := by
  simp [commandMoves]

/-- The lengths Decode goes on with (R163, R164). -/
theorem decodableLength_iff (len : Nat) : decodableLength len = true ↔ 12 ≤ len ∧ len ≤ 212 := by
  simp [decodableLength, Config.frameOverhead, Config.frameMax]

/-- A Verify error is passed on unchanged (R168). -/
@[simp] theorem decodeIfVerified_error (len : Nat) (t : State) (e : FrameError) :
    decodeIfVerified len (.next (t, .error e)) = .next (t, .error e) := rfl

end Sys2Proof.Machine
end

