-- ==== Sys2Proof/Tests/Slice0.lean ====
section
/-! SUPPORT. Tests. Expected results are the spec's own (spec/95_test_vectors.md, and the examples of the rules). The
`test_` theorems check decoding, one command each, and the pure functions; each `witness_` theorem shows that the
hypotheses of the obligation it is named after can be met, clause by clause, at the boundaries. -/

namespace Sys2Proof.Tests

open Sys2Proof Sys2Proof.Machine

/-! ### Helpers -/

/-- One look at the next state of an outcome. -/
def look {α : Type} (o : Host.Outcome State Fault Refusal) (f : State → α) : Option α :=
  match o with
  | .next t => some (f t)
  | _ => none

/-- A running block with some bytes stored from index `a` on. -/
def holding (a : Nat) (bytes : List Byte) : State := memWrite a bytes State.reset

/-- A running block with a value in V. -/
def withV (v : Value) : State := setV v State.reset

/-- The flags of a decode, BCDINV then BCDOVF. -/
def decodeFlags (t : State) : Bool × Bool := (t.bcdinv, t.bcdovf)

/-- A halted block. -/
def halted : State := setFault 2#4 State.reset

/-- The reset state with the host's next moves given. -/
def pending (ms : List HostMove) : State := setHost ms State.reset

/-- The frame of vector S1. -/
def frameS1 : List Byte :=
  [0x68, 0x01, 0x00, 0x14, 0x57, 0x42, 0x30, 0x68] ++ [0x11, 0x04, 0x33, 0x33, 0x33, 0x33, 0x8F, 0x16]

/-- The frame of vector FD2. -/
def frameFD2 : List Byte :=
  [0x68, 0x01, 0x00, 0x14, 0x57, 0x42, 0x30, 0x68, 0x91, 0x08] ++
  [0x33, 0x34, 0x33, 0x33, 0xAB, 0x89, 0x67, 0x45, 0xF4, 0x16]

/-- The frame of vector FD4. -/
def frameFD4 : List Byte := [0x68, 0x01, 0x00, 0x14, 0x57, 0x42, 0x30, 0x68, 0xD1, 0x01, 0x37, 0xB7, 0x16]

/-! ### Well-formedness: each format's must-be-zero fields (R71), one ill-formed term for each check -/

theorem test_wellFormed_f0 : Format.accepts .f0 ⟨0#8, 0#8, 0#8⟩ = true ∧ Format.accepts .f0 ⟨1#8, 0#8, 0#8⟩ = false ∧
    Format.accepts .f0 ⟨0#8, 1#8, 0#8⟩ = false ∧ Format.accepts .f0 ⟨0#8, 0#8, 1#8⟩ = false := by decide

theorem test_wellFormed_fa : Format.accepts .fa ⟨9#8, 0#8, 0#8⟩ = true ∧ Format.accepts .fa ⟨9#8, 1#8, 0#8⟩ = false ∧
    Format.accepts .fa ⟨9#8, 0#8, 1#8⟩ = false := by decide

theorem test_wellFormed_fab : Format.accepts .fab ⟨9#8, 1#8, 0#8⟩ = true ∧
    Format.accepts .fab ⟨9#8, 1#8, 1#8⟩ = false := by decide

theorem test_wellFormed_fabc : Format.accepts .fabc ⟨9#8, 1#8, 1#8⟩ = true := by decide

/-! ### Decoding: every constructor from a word written out (R72; vectors of 95) -/

theorem test_decode_nop : decode 0x00000000#32 = .ok .nop := by decide
theorem test_decode_st : decode 0x01006800#32 = .ok (.st 0x00#8 0x68#8) := by decide
theorem test_decode_ld : decode 0x02090000#32 = .ok (.ld 0x09#8) := by decide
theorem test_decode_setv : decode 0x03000000#32 = .ok .setv := by decide
theorem test_decode_chksum : decode 0x10050E00#32 = .ok (.chksum 0x05#8 0x0E#8) := by decide
theorem test_decode_chkadd : decode 0x11080600#32 = .ok (.chkadd 0x08#8 0x06#8) := by decide
theorem test_decode_chkvfy : decode 0x12C83700#32 = .ok (.chkvfy 0xC8#8 0x37#8) := by decide
theorem test_decode_chkput : decode 0x13FE0100#32 = .ok (.chkput 0xFE#8 0x01#8) := by decide
theorem test_decode_bcdenc : decode 0x20200600#32 = .ok (.bcdenc 0x20#8 0x06#8) := by decide
theorem test_decode_bcdencr : decode 0x21010600#32 = .ok (.bcdencr 0x01#8 0x06#8) := by decide
theorem test_decode_bcddec : decode 0x22200201#32 = .ok (.bcddec 0x20#8 0x02#8 0x01#8) := by decide
theorem test_decode_bcddecr : decode 0x23300405#32 = .ok (.bcddecr 0x30#8 0x04#8 0x05#8) := by decide
theorem test_decode_obf : decode 0x300A0400#32 = .ok (.obf 0x0A#8 0x04#8) := by decide
theorem test_decode_deobf : decode 0x310A0200#32 = .ok (.deobf 0x0A#8 0x02#8) := by decide
theorem test_decode_ctlx : decode 0x40080000#32 = .ok (.ctlx 0x08#8) := by decide
theorem test_decode_ctlpk : decode 0x41081100#32 = .ok (.ctlpk 0x08#8 0x11#8) := by decide

/-- FL1 to FL8: opcodes outside the table. -/
theorem test_decode_unknown : ([0x04000000#32, 0xFFFFFFFF#32, 0x0F000000#32, 0x14000000#32, 0x24000000#32,
    0x32000000#32, 0x42000000#32, 0x50000000#32].all fun w => decode w = .error .unknownOpcode) = true := by decide

/-- FL9 to FL18: a must-be-zero field set. -/
theorem test_decode_unusedField : ([0x00000001#32, 0x00010000#32, 0x03010000#32, 0x02090100#32, 0x02090001#32,
    0x40080100#32, 0x01006801#32, 0x10000E01#32, 0x41081101#32, 0x10C86401#32].all fun w =>
      decode w = .error .unusedFieldSet) = true := by decide

/-- The examples of R111 to R142 encode to their words. -/
theorem test_encode : encode (.chksum 0#8 14#8) = 0x10000E00#32 ∧ encode (.bcddec 32#8 6#8 6#8) = 0x22200606#32 ∧
    encode (.deobf 10#8 2#8) = 0x310A0200#32 ∧ encode (.ctlx 8#8) = 0x40080000#32 := by decide

theorem test_decodeTableWord : decodeTableWord 32 0x10000E00 = some (.chksum 0x00#8 0x0E#8) ∧
    decodeTableWord 32 0x04000000 = none := by decide

/-! ### One command each (vectors HA, CS, BE, BD, OB, CX, CP) -/

/-- HA1, HA8. -/
theorem test_nop : look (exec .nop (setOpd 0x1234#64 (withV 5#64))) (·.v) = some 5#64 := by decide

/-- HA2, HA3, HA9. -/
theorem test_st : look (exec (.st 255#8 0xFF#8) State.reset) (fbRead · 255) = some 0xFF#8 ∧
    look (exec (.st 7#8 0x22#8) (holding 7 [0x11])) (fbRead · 7) = some 0x22#8 := by decide

/-- HA4. -/
theorem test_ld : look (exec (.ld 9#8) (holding 9 [0x04])) (·.d) = some 0x04#8 := by decide

/-- HA6. -/
theorem test_setv : look (exec .setv (setOpd 0x00000046D7238521#64 State.reset)) (·.v) = some 304257140001#64 := by
  decide

/-- CS1, CS3, CS5, CS10. -/
theorem test_chksum : look (exec (.chksum 0#8 14#8) (holding 0 frameS1)) (·.ck) = some 0x8F#8 ∧
    look (exec (.chksum 5#8 0#8) (setCk 0x55#8 State.reset)) (·.ck) = some 0#8 ∧
    look (exec (.chksum 0#8 16#8) (holding 0 frameS1)) (·.ck) = some 0x34#8 ∧
    look (exec (.chksum 0#8 2#8) (holding 0 [0xFF, 0x01])) (·.ck) = some 0x00#8 := by decide

/-- CS6, CS7. -/
theorem test_chkadd : look (exec (.chkadd 8#8 6#8) (setCk 0xAE#8 (holding 0 frameS1))) (·.ck) = some 0x8F#8 ∧
    look (exec (.chkadd 8#8 0#8) (setCk 0xAE#8 State.reset)) (·.ck) = some 0xAE#8 := by decide

/-- CS8, CS9: a mismatch is no fault. -/
theorem test_chkvfy :
    look (exec (.chkvfy 0#8 14#8) (holding 0 frameS1)) (fun t => (t.ck, t.ckok)) = some (0x8F#8, true) ∧
    look (exec (.chkvfy 0#8 14#8) (fbWrite 9 0x05#8 (setCkok true (holding 0 frameS1))))
      (fun t => (t.ck, t.ckok, t.fault)) = some (0x90#8, false, 0#4) := by decide

/-- CS13, CS14: the empty range. -/
theorem test_chkvfy_empty : look (exec (.chkvfy 0#8 0#8) (holding 0 [0x00])) (·.ckok) = some true ∧
    look (exec (.chkvfy 0#8 0#8) (holding 0 [0x01])) (·.ckok) = some false := by decide

/-- CS16, CS17. -/
theorem test_chkput :
    look (exec (.chkput 254#8 1#8) (holding 254 [0x7F, 0xEE])) (fun t => (t.ck, fbRead t 255)) =
      some (0x7F#8, 0x7F#8) ∧
    look (exec (.chkput 255#8 0#8) (holding 255 [0xEE])) (fun t => (t.ck, fbRead t 255)) = some (0#8, 0#8) := by decide

/-- BE1, BE7, BE11. -/
theorem test_bcdenc :
    look (exec (.bcdenc 0x20#8 6#8) (withV 304257140001#64)) (fun t => (memRead t 0x20 6, t.bcdovf)) =
      some ([0x30, 0x42, 0x57, 0x14, 0x00, 0x01], false) ∧
    look (exec (.bcdenc 0x20#8 1#8) (withV 1234#64)) (fun t => (memRead t 0x20 1, t.bcdovf)) = some ([0x34], true) ∧
    look (exec (.bcdenc 0x20#8 0#8) (withV 7#64)) (·.bcdovf) = some true := by decide

/-- BE14, the greatest value in nine bytes. -/
theorem test_bcdenc_wide :
    look (exec (.bcdenc 0x20#8 9#8) (withV 18446744073709551615#64)) (fun t => (memRead t 0x20 9, t.bcdovf)) =
      some ([0x44, 0x67, 0x44, 0x07, 0x37, 0x09, 0x55, 0x16, 0x15], true) := by decide

/-- BE8, BE15, in wire order. -/
theorem test_bcdencr :
    look (exec (.bcdencr 0x20#8 4#8) (withV 12345#64)) (fun t => (memRead t 0x20 4, t.bcdovf)) =
      some ([0x45, 0x23, 0x01, 0x00], false) ∧
    look (exec (.bcdencr 0x20#8 6#8) (withV 281474976710655#64)) (fun t => (memRead t 0x20 6, t.bcdovf)) =
      some ([0x55, 0x06, 0x71, 0x76, 0x49, 0x47], true) := by decide

/-- BD2, BD11, BD12. -/
theorem test_bcddec :
    look (exec (.bcddec 0x20#8 2#8 1#8) (holding 0x20 [0x12, 0x34])) (·.v) = some 34#64 ∧
    look (exec (.bcddec 0x20#8 2#8 1#8) (holding 0x20 [0xA1, 0x23])) (fun t => (t.v, decodeFlags t)) =
      some (23#64, false, false) ∧
    look (exec (.bcddec 0x20#8 2#8 2#8) (setV 5#64 (holding 0x20 [0xA1, 0x23]))) (fun t => (t.v, decodeFlags t)) =
      some (0#64, true, false) := by decide

/-- BD26: more than 64 bits. -/
theorem test_bcddec_wide :
    look (exec (.bcddec 0x20#8 10#8 10#8) (holding 0x20 (List.replicate 10 0x99#8))) (fun t => (t.v, decodeFlags t)) =
      some (7766279631452241919#64, false, true) := by decide

/-- BD4, BD5, BD13, BD14, BD22. -/
theorem test_bcddecr :
    look (exec (.bcddecr 0x20#8 2#8 2#8) (holding 0x20 [0x12, 0x34])) (·.v) = some 3412#64 ∧
    look (exec (.bcddecr 0x20#8 2#8 1#8) (holding 0x20 [0x12, 0x34])) (·.v) = some 12#64 ∧
    look (exec (.bcddecr 0x20#8 2#8 1#8) (holding 0x20 [0xA1, 0x23])) (·.bcdinv) = some true ∧
    look (exec (.bcddecr 0x20#8 6#8 6#8) (holding 0x20 [0x01, 0x00, 0x14, 0x57, 0x42, 0x30])) (·.v) =
      some 304257140001#64 := by decide

/-- OB2, OB6. -/
theorem test_obf :
    look (exec (.obf 10#8 4#8) (holding 10 [0x00, 0xCC, 0xCD, 0xFF])) (memRead · 10 4) =
      some [0x33, 0xFF, 0x00, 0x32] ∧
    look (exec (.obf 10#8 2#8) (holding 10 [0x11, 0x22, 0x33])) (memRead · 10 3) = some [0x44, 0x55, 0x33] := by decide

/-- OB3, OB4. -/
theorem test_deobf :
    look (exec (.deobf 10#8 4#8) (holding 10 [0x33, 0xFF, 0x00, 0x32])) (memRead · 10 4) =
      some [0x00, 0xCC, 0xCD, 0xFF] ∧
    look (exec (.deobf 10#8 2#8) (holding 10 [0x33, 0x37])) (memRead · 10 2) = some [0x00, 0x04] := by decide

/-- CX3, CX4. -/
theorem test_ctlx :
    look (exec (.ctlx 8#8) (holding 8 [0xB1])) (fun t => (t.dir, t.errf, t.fup, t.fc, ctlf t)) =
      some (true, false, true, 0x11#5, 0xB1#8) ∧
    look (exec (.ctlx 8#8) (holding 8 [0xD1])) (fun t => (t.dir, t.errf, t.fup, t.fc, ctlf t)) =
      some (true, true, false, 0x11#5, 0xD1#8) := by decide

/-- CP1, CP4, CP7; the control fields stay. -/
theorem test_ctlpk :
    look (exec (.ctlpk 8#8 0x20#8) (setControl true true true 0x1F#5 State.reset)) (fun t => (fbRead t 8, ctlf t)) =
      some (0x00#8, 0xFF#8) ∧
    look (exec (.ctlpk 8#8 0xF1#8) State.reset) (fbRead · 8) = some 0x11#8 := by decide

/-! ### Steps: faults, the halt, reset, the host's interface (vectors FL, program P6) -/

/-- FL1: an illegal word halts with 1, the rest kept. -/
theorem test_step_illegal : look (step (setHost [.command 0x04000000#32 0#64] (withV 9#64)))
    (fun t => (status t, t.v, t.host)) = some (0x10#8, 9#64, []) := by decide

/-- FL19, FL21, FL23, FL25, FL28, FL29, FL31, FL33, FL34: F_RANGE. -/
theorem test_step_range : ([0x10C83900#32, 0x12C83800#32, 0x13FF0100#32, 0x20FB0600#32, 0x2102FF00#32,
    0x30FF0200#32, 0x3102FF00#32, 0x2202FF00#32, 0x23C83901#32].all fun w =>
      look (step (pending [.command w 0#64])) status = some 0x20#8) = true := by decide

/-- FL18: decoding comes before the range (R186). -/
theorem test_step_priority : look (step (pending [.command 0x10C86401#32 0#64])) (·.fault) = some 1#4 := by decide

/-- P6: a halted block does nothing, a reset clears FAULT. -/
theorem test_step_halted : look (step (setHost [.command 0x03000000#32 5#64] (setV 9#64 halted)))
    (fun t => (t.v, t.fault)) = some (9#64, 2#4) ∧
    look (step (setHost [.reset] (setV 9#64 halted))) (fun t => (t.v, t.fault)) = some (0#64, 0#4) := by decide

/-- The first instruction after reset is the placed word. -/
theorem test_withFetchWord : look (step (State.reset.withFetchWord 32 0x01006800)) (fbRead · 0) = some 0x68#8 := by
  decide

/-! ### Frames and text (vectors FE, FD, S9, R77, R78) -/

/-- FE1, FE6, FE8. -/
theorem test_frameEncode : frameEncode 304257140001#48 ⟨false, 0x11#8, [0, 0, 0, 0]⟩ = .ok frameS1 ∧
    frameEncode 281474976710655#48 ⟨false, 0x15#8, []⟩ =
      .ok [0x68, 0x55, 0x06, 0x71, 0x76, 0x49, 0x47, 0x68, 0x15, 0x00, 0xB7, 0x16] ∧
    frameEncode 304257140001#48 ⟨false, 0x11#8, List.replicate 201 0#8⟩ = .error .validation := by decide +kernel

/-- FD1, FD2, FD4. -/
theorem test_frameDecode : frameDecode frameS1 = .ok ⟨false, 0x11#8, [0, 0, 0, 0]⟩ ∧
    frameDecode frameFD2 = .ok ⟨false, 0x11#8, [0x00, 0x01, 0x00, 0x00, 0x78, 0x56, 0x34, 0x12]⟩ ∧
    frameDecode frameFD4 = .error (.protocolException 0x11#8 0x04#8) := by decide

/-- FD6, FD9, FD11, FD12. -/
theorem test_frameDecode_errors :
    frameDecode [0x68, 0x01, 0x00, 0x14, 0x57, 0x42, 0x30, 0x68, 0xD1, 0x00, 0x7F, 0x16] = .ok ⟨false, 0x11#8, []⟩ ∧
    frameDecode (frameS1.take 11) = .error .framing ∧
    frameDecode ((frameS1.set 9 0x03#8).set 14 0x8E#8) = .error .framing ∧
    frameDecode (frameS1.set 9 0x03#8) = .error .checksum := by decide

/-- S9. -/
theorem test_frameVerify : frameVerify frameS1 frameFD2 = some (.ok ()) ∧
    frameVerify frameS1 (frameFD2.take 9) = some (.error .framing) ∧
    frameVerify frameS1 (frameFD2.set 6 0x31#8) = some (.error .addressMismatch) ∧
    frameVerify frameS1 [0x00, 0x01, 0x00, 0x14, 0x57, 0x42, 0x30, 0x00, 0x00, 0x00] = some (.ok ()) := by decide

/-- FD2, S9, C3: Verify's errors come first and unchanged, then Decode's. -/
theorem test_frameReceive :
    frameReceive frameS1 frameFD2 = some (.ok ⟨false, 0x11#8, [0x00, 0x01, 0x00, 0x00, 0x78, 0x56, 0x34, 0x12]⟩) ∧
    frameReceive frameS1 (frameFD2.set 6 0x31#8) = some (.error .addressMismatch) ∧
    frameReceive frameS1 (frameFD2.take 10) = some (.error .framing) ∧
    frameReceive frameS1 (frameFD2.set 9 0x09#8) = some (.error .checksum) := by decide

/-- R77, R78. -/
theorem test_assemble : assemble ["ST 0, 0x68 ; comment", "host: decides", "SETV 304257140001", "STS 10, [0A ff]"] =
    some [.command 0x01006800#32 0#64, .command 0x03000000#32 304257140001#64, .command 0x010A0A00#32 0#64,
      .command 0x010BFF00#32 0#64] ∧
    assemble ["ST 0, 256"] = none ∧ assemble ["STS 255, [00 11]"] = none := by decide

/-! ### Witnesses: encoding -/

theorem witness_DecodeEncodeRoundTrip : (Instr.bcddec 0xFF#8 0xFE#8 0x01#8).WellFormed = true := by decide

theorem witness_EncodeDecodeRoundTrip : decode 0x01006800#32 = .ok (.st 0#8 0x68#8) := by decide

/-- Both clauses: a word of a row, and a word of none met by a running block. -/
theorem witness_WordsOutsideTheTableAreIllegal :
    (Instr.chksum 0#8 0#8 ∈ tableRows ∧ rowMatches 0x10000E00#32 (.chksum 0#8 0#8) = true) ∧
    (∀ row ∈ tableRows, rowMatches 0x02000100#32 row = false) ∧
    (pending [.command 0x02000100#32 7#64]).fault = 0#4 ∧
    (pending [.command 0x02000100#32 7#64]).host = [.command 0x02000100#32 7#64] := by decide

theorem witness_TableRowsAreExclusive : Instr.ld 0#8 ∈ tableRows ∧ rowMatches 0x02090000#32 (.ld 0#8) = true := by
  decide

theorem witness_StepRunsTheDecodedCommand :
    (pending [.command 0x10000E00#32 0#64, .reset]).host = .command 0x10000E00#32 0#64 :: [.reset] ∧
    decode 0x10000E00#32 = .ok (.chksum 0#8 14#8) ∧ (Instr.chksum 0#8 14#8).WellFormed = true := by decide

/-! ### Witnesses: the sixteen commands, each clause at its boundary (R182) -/

/-- Of StStoresItsByte, LdLoadsIntoD, CtlxSplitsTheByte, CtlpkWritesTheMasterByte, SetvLoadsTheOperand (second clause)
and ControlViewIsTheByteRead: their one hypothesis is a running block. -/
theorem witness_running_block : State.reset.fault = 0#4 := by decide

/-- SETV's third clause. -/
theorem witness_SetvLoadsTheOperand : Instr.nop ≠ .setv ∧ exec .nop State.reset = .next State.reset :=
  ⟨by decide, rfl⟩

/-- Of ChksumSumsTheRange, ChkaddAddsTheRange, BcdencWritesTableOrder, BcdencrWritesWireOrder, BcddecReadsTableOrder,
BcddecrReadsWireOrder, ObfAddsToTheRange, DeobfSubtractsFromTheRange: 256 is inside, 257 is not. -/
theorem witness_plain_extent : State.reset.fault = 0#4 ∧
    ((200#8 : Byte).toNat + (56#8 : Byte).toNat ≤ 256) ∧ (256 < (200#8 : Byte).toNat + (57#8 : Byte).toNat) ∧
    ((250#8 : Byte).toNat + (6#8 : Byte).toNat ≤ 256) ∧ (256 < (251#8 : Byte).toNat + (6#8 : Byte).toNat) ∧
    ((255#8 : Byte).toNat + (1#8 : Byte).toNat ≤ 256) ∧ (256 < (255#8 : Byte).toNat + (2#8 : Byte).toNat) := by decide

/-- Of ChkvfyComparesTheStoredSum and ChkputStoresTheSum: 255 is inside, 256 is not. -/
theorem witness_checksum_extent : State.reset.fault = 0#4 ∧
    ((200#8 : Byte).toNat + (55#8 : Byte).toNat ≤ 255) ∧ (255 < (200#8 : Byte).toNat + (56#8 : Byte).toNat) ∧
    ((255#8 : Byte).toNat + (0#8 : Byte).toNat ≤ 255) ∧ (255 < (255#8 : Byte).toNat + (1#8 : Byte).toNat) := by decide

/-- Of BcdencWritesTableOrder and BcdencrWritesWireOrder, the clause about a byte of the range. -/
theorem witness_encode_byte : 0 < (6#8 : Byte).toNat := by decide

/-- BCDDEC: a valid window behind an invalid leading byte (BD11), the empty window (BD19), an invalid window (BD12). -/
theorem witness_BcddecReadsTableOrder :
    AllBcd (holding 0x20 [0xA1, 0x23]) (0x20 + 2 - 1) (0x20 + 2 - 1 + 1) ∧
    AllBcd (holding 0x20 [0xA1, 0x23]) (0x20 + 2 - 0) (0x20 + 2 - 0 + 0) ∧
    ¬ AllBcd (holding 0x20 [0xA1, 0x23]) (0x20 + 2 - 2) (0x20 + 2 - 2 + 2) := by
  unfold AllBcd
  decide

/-- BCDDECR: a valid window (BD14), an invalid one (BD13). -/
theorem witness_BcddecrReadsWireOrder :
    AllBcd (holding 0x20 [0x23, 0xA1]) 0x20 (0x20 + 1) ∧ ¬ AllBcd (holding 0x20 [0xA1, 0x23]) 0x20 (0x20 + 1) := by
  unfold AllBcd
  decide

/-! ### Witnesses: frames -/

theorem witness_HostAccessFrame : (∃ t, exec .nop State.reset = .next t) ∧ (∃ t, exec (.st 255#8 1#8) State.reset = .next t) ∧
    (∃ t, exec (.ld 255#8) State.reset = .next t) ∧ (∃ t, exec .setv State.reset = .next t) ∧
    (254 ≠ indexOf 255#8) :=
  ⟨⟨_, rfl⟩, ⟨_, rfl⟩, ⟨_, rfl⟩, ⟨_, rfl⟩, by decide⟩

/-- Inside and outside the buffer, each command. -/
theorem witness_ChecksumFrame : (∃ t, exec (.chksum 200#8 56#8) State.reset = .next t) ∧
    (∃ t, exec (.chkadd 200#8 57#8) State.reset = .next t) ∧ (∃ t, exec (.chkvfy 200#8 55#8) State.reset = .next t) ∧
    (∃ t, exec (.chkput 200#8 55#8) State.reset = .next t) ∧ (indexOf 200#8 + countOf 56#8 ≤ 256) ∧
    (indexOf 200#8 + countOf 55#8 ≤ 255) ∧ (254 ≠ checksumIndex 200#8 55#8) :=
  ⟨⟨_, rfl⟩, ⟨_, rfl⟩, ⟨_, rfl⟩, ⟨_, rfl⟩, by decide, by decide, by decide⟩

theorem witness_BcdEncodeFrame : (∃ t, exec (.bcdenc 250#8 6#8) (withV 5#64) = .next t) ∧
    (∃ t, exec (.bcdencr 251#8 6#8) (withV 5#64) = .next t) ∧ (indexOf 250#8 + countOf 6#8 ≤ 256) :=
  ⟨⟨_, rfl⟩, ⟨_, rfl⟩, by decide⟩

theorem witness_BcdDecodeFrame : (∃ t, exec (.bcddec 250#8 6#8 3#8) State.reset = .next t) ∧
    (∃ t, exec (.bcddecr 251#8 6#8 3#8) State.reset = .next t) ∧ (indexOf 250#8 + countOf 6#8 ≤ 256) :=
  ⟨⟨_, rfl⟩, ⟨_, rfl⟩, by decide⟩

theorem witness_ObfuscationFrame : (∃ t, exec (.obf 255#8 1#8) State.reset = .next t) ∧
    (∃ t, exec (.deobf 255#8 2#8) State.reset = .next t) ∧ (indexOf 255#8 + countOf 1#8 ≤ 256) :=
  ⟨⟨_, rfl⟩, ⟨_, rfl⟩, by decide⟩

theorem witness_ControlByteFrame : (∃ t, exec (.ctlx 8#8) State.reset = .next t) ∧
    (∃ t, exec (.ctlpk 8#8 0x11#8) State.reset = .next t) ∧ (9 ≠ indexOf 8#8) :=
  ⟨⟨_, rfl⟩, ⟨_, rfl⟩, by decide⟩

/-! ### Witnesses: faults, the halt, reset, steps -/

/-- Both clauses at the boundary. -/
theorem witness_RangeFaultExactlyOutsideTheBuffer : State.reset.fault = 0#4 ∧ 256 < extentEnd (.chkput 255#8 1#8) ∧
    extentEnd (.chkput 255#8 0#8) ≤ 256 ∧ 256 < extentEnd (.obf 255#8 2#8) ∧ extentEnd (.st 255#8 0#8) ≤ 256 := by
  decide

/-- A step that faults: F_RANGE, and F_ILLEGAL. -/
theorem witness_FaultEntryWritesOnlyFault :
    (∃ t, step (pending [.command 0x10C83900#32 0#64]) = .next t ∧ t.fault ≠ State.reset.fault) ∧
    (∃ t, step (pending [.command 0x04000000#32 0#64]) = .next t ∧ t.fault ≠ State.reset.fault) :=
  ⟨⟨_, rfl, by decide⟩, ⟨_, rfl, by decide⟩⟩

theorem witness_HaltedBlockIgnoresCommands : (setHost [.command 0x03000000#32 5#64] halted).fault ≠ 0#4 ∧
    (setHost [.command 0x03000000#32 5#64] halted).host = .command 0x03000000#32 5#64 :: [] := by decide

theorem witness_OnlyResetLeavesTheHalt : (setHost [.reset] halted).fault ≠ 0#4 ∧
    ∃ t, step (setHost [.reset] halted) = .next t ∧ t.fault ≠ (setHost [.reset] halted).fault :=
  ⟨by decide, _, rfl, by decide⟩

theorem witness_ResetMoveClearsTheBlock : (setHost [.reset] halted).host = .reset :: [] := by decide

/-- A good state that is not the reset state, and its step. -/
theorem witness_StepKeepsGood : (setHost [.command 0x01006800#32 0#64] (holding 9 [0x04])).Good ∧
    ∃ t, step (setHost [.command 0x01006800#32 0#64] (holding 9 [0x04])) = .next t :=
  ⟨⟨by decide, by decide⟩, _, rfl⟩

/-- Both clauses. -/
theorem witness_HostMovesAreTakenInOrder : (pending [.reset, .reset]).host = .reset :: [.reset] ∧
    (∃ t, step (pending [.reset, .reset]) = .next t) ∧ State.reset.host = [] :=
  ⟨by decide, ⟨_, rfl⟩, by decide⟩

/-! ### Witnesses: whole-machine rules -/

/-- Every register does change under one of its writers. -/
theorem witness_RegistersChangeOnlyByTheirWriters :
    look (exec .setv (setOpd 5#64 State.reset)) (fun t => decide (t.v ≠ State.reset.v)) = some true ∧
    look (exec (.chkvfy 0#8 14#8) (holding 0 frameS1))
      (fun t => decide (t.ck ≠ State.reset.ck) && decide (t.ckok ≠ State.reset.ckok)) = some true ∧
    look (exec (.ld 9#8) (holding 9 [0x04])) (fun t => decide (t.d ≠ State.reset.d)) = some true ∧
    look (exec (.ctlx 8#8) (holding 8 [0xFF])) (fun t => decide (t.dir ≠ false) && decide (t.errf ≠ false) &&
      decide (t.fup ≠ false) && decide (t.fc ≠ 0#5)) = some true ∧
    look (exec (.bcddec 8#8 1#8 1#8) (holding 8 [0xFF])) (fun t => decide (t.bcdinv ≠ false)) = some true ∧
    look (exec (.bcdenc 8#8 1#8) (withV 100#64)) (fun t => decide (t.bcdovf ≠ false)) = some true := by decide

theorem witness_BytesChangeOnlyWhereTabled :
    look (exec (.st 7#8 0x22#8) (holding 7 [0x11])) (fun t => decide (fbRead t 7 ≠ 0x11#8)) = some true ∧
    fbRead (holding 7 [0x11]) 7 = 0x11#8 := by decide

/-- Two states that differ in a byte LD does not read, and the next state of each. -/
theorem witness_ResultsDependOnlyOnBytesRead :
    holding 7 [0x22] = { holding 7 [0x11] with fb := (holding 7 [0x22]).fb, resets := (holding 7 [0x22]).resets } ∧
    (∀ k, readsAt (.st 9#8 1#8) k → fbRead (holding 7 [0x22]) k = fbRead (holding 7 [0x11]) k) ∧
    (∃ t, exec (.st 9#8 1#8) (holding 7 [0x11]) = .next t) ∧ (∃ t, exec (.st 9#8 1#8) (holding 7 [0x22]) = .next t) ∧
    writesAt (.st 9#8 1#8) 9 ∧ (holding 7 [0x11]).fault = 0#4 ∧ extentEnd (.st 9#8 1#8) ≤ 256 :=
  ⟨by decide, fun _ h => h.elim, ⟨_, rfl⟩, ⟨_, rfl⟩, rfl, by decide, by decide⟩

/-- Both clauses: a list of moves, and a run, that halts the block. -/
theorem witness_CommandsAfterAFaultDoNothing :
    (∃ t, takeMoves [.reset, .command 0x04000000#32 0#64] State.reset = .next t ∧ t.fault ≠ 0#4) ∧
    (∃ t, runFromReset [(0x04000000#32, 0#64)] State.reset = .next t ∧ t.fault ≠ 0#4) :=
  ⟨⟨_, rfl, by decide⟩, ⟨_, rfl, by decide⟩⟩

/-! ### Witnesses: laws of the units -/

theorem witness_ChecksumLaws : List.Perm [0x10#8, 0x20#8, 0x30#8] [0x30#8, 0x10#8, 0x20#8] := by decide

/-- Both clauses: the split of S5, at both ends too, and CHKPUT at the last legal place. -/
theorem witness_ChecksumCommandsCompose :
    (∃ t u, exec (.chksum 0#8 8#8) (holding 0 frameS1) = .next t ∧ exec (.chkadd (0#8 + 8#8) 6#8) t = .next u) ∧
    ((250#8 : Byte).toNat + (0#8 : Byte).toNat + (6#8 : Byte).toNat ≤ 256 ∧
      (0#8 : Byte).toNat + (6#8 : Byte).toNat ≤ 255 ∧ (250#8 : Byte).toNat + (0#8 : Byte).toNat ≤ 255) ∧
    (∃ t, exec (.chkput 254#8 1#8) State.reset = .next t) ∧ (254#8 : Byte).toNat + (1#8 : Byte).toNat ≤ 255 ∧
    State.reset.fault = 0#4 :=
  ⟨⟨_, _, rfl, rfl⟩, by decide, ⟨_, rfl⟩, by decide, by decide⟩

/-- A frame that verifies; a covered byte, the checksum byte and the byte after it changed; two covered bytes changed
with the sum kept. -/
theorem witness_SingleByteTamperDetection :
    (∃ t, exec (.chkvfy 0#8 14#8) (holding 0 frameS1) = .next t ∧ t.ckok = true) ∧
    (∀ k x, (∀ j, j ≠ k → fbRead (fbWrite k x (holding 0 frameS1)) j = fbRead (holding 0 frameS1) j) ∧
      fbRead (fbWrite k x (holding 0 frameS1)) k = x) ∧
    (fbRead (holding 0 frameS1) 0 ≠ 0x69#8 ∧ fbRead (holding 0 frameS1) 14 ≠ 0x90#8 ∧
      fbRead (holding 0 frameS1) 15 ≠ 0x17#8) ∧
    rangeSum (fbWrite 1 0x00#8 (fbWrite 0 0x69#8 (holding 0 frameS1))) 0 14 % 256 =
      rangeSum (holding 0 frameS1) 0 14 % 256 :=
  ⟨⟨_, rfl, by decide⟩,
    fun _ _ => ⟨fun j hj => by rw [fbRead_fbWrite, if_neg hj], by rw [fbRead_fbWrite, if_pos rfl]⟩,
    by decide, by rw [← rangeSum_eq_sum, ← rangeSum_eq_sum]; decide⟩

/-- S4: a shorter and a longer size that both hold the value. -/
theorem witness_EncodeBcdClosedForm : 1 < 4 ∧ 3 ≤ 4 ∧ 12345 < 100 ^ 3 ∧ 0x23#8 ∈ encodeBCD 12345 3 := by decide

theorem witness_BcdEncodeThenDecode : State.reset.fault = 0#4 ∧ (0x20#8 : Byte).toNat + (4#8 : Byte).toNat ≤ 256 ∧
    (∃ t, exec (.bcdenc 0x20#8 4#8) (withV 12345#64) = .next t) ∧
    (∃ t, exec (.bcdencr 0x20#8 4#8) (withV 12345#64) = .next t) :=
  ⟨by decide, by decide, ⟨_, rfl⟩, ⟨_, rfl⟩⟩

/-- Both orders. -/
theorem witness_BcdDecodeThenEncode : (holding 0x20 [0x12, 0x34]).fault = 0#4 ∧
    (0x20#8 : Byte).toNat + (2#8 : Byte).toNat ≤ 256 ∧ AllBcd (holding 0x20 [0x12, 0x34]) 0x20 (0x20 + 2) ∧
    tableValue (holding 0x20 [0x12, 0x34]) 0x20 2 < 2 ^ 64 ∧ wireValue (holding 0x20 [0x12, 0x34]) 0x20 2 < 2 ^ 64 ∧
    (∃ t u, exec (.bcddec 0x20#8 2#8 2#8) (holding 0x20 [0x12, 0x34]) = .next t ∧
      exec (.bcdenc 0x20#8 2#8) t = .next u) ∧
    (∃ t u, exec (.bcddecr 0x20#8 2#8 2#8) (holding 0x20 [0x12, 0x34]) = .next t ∧
      exec (.bcdencr 0x20#8 2#8) t = .next u) :=
  ⟨by decide, by decide, by unfold AllBcd; decide, by rw [← decodeLoop_memRead]; decide,
    by rw [← decodeLoop_reverse]; decide, ⟨_, _, rfl, rfl⟩, ⟨_, _, rfl, rfl⟩⟩

theorem witness_ObfuscationInverses : State.reset.fault = 0#4 ∧ (255#8 : Byte).toNat + (1#8 : Byte).toNat ≤ 256 ∧
    (∃ t u, exec (.obf 255#8 1#8) State.reset = .next t ∧ exec (.deobf 255#8 1#8) t = .next u) ∧
    (∃ t u, exec (.deobf 255#8 1#8) State.reset = .next t ∧ exec (.obf 255#8 1#8) t = .next u) :=
  ⟨by decide, by decide, ⟨_, _, rfl, rfl⟩, ⟨_, _, rfl, rfl⟩⟩

theorem witness_ControlByteLaws : State.reset.fault = 0#4 ∧ (∃ t, exec (.ctlpk 8#8 0xF1#8) State.reset = .next t) ∧
    (∃ t, exec (.st 8#8 0xB1#8) State.reset = .next t) :=
  ⟨by decide, ⟨_, rfl⟩, ⟨_, rfl⟩⟩

/-! ### Witnesses: the reference compositions -/

/-- A string that ends at the last byte of the buffer. -/
theorem witness_StringStoreWritesItsBytes : State.reset.fault = 0#4 ∧ 254 + [0x11#8, 0x22#8].length ≤ 256 := by decide

/-- Both clauses at the boundary: 200 data bytes and 201. -/
theorem witness_FrameHasTheWireLayout : (List.replicate 200 0#8).length ≤ 200 ∧ 200 < (List.replicate 201 0#8).length := by
  simp only [List.length_replicate]
  decide

/-- Every clause: the lengths 11, 12, 212, 213; FD12, FD11, FD4, FD1 and FD6. -/
theorem witness_FrameDecodeSteps :
    ((frameS1.take 11).length < 12 ∧ 212 < (List.replicate 213 0#8).length ∧
      12 ≤ (List.replicate 12 0#8).length ∧ (List.replicate 212 0#8).length ≤ 212) ∧
    (((frameS1.set 9 3#8).take 14).map BitVec.toNat).sum % 256 ≠ 0x8F ∧
    ((((frameS1.set 9 3#8).set 14 0x8E#8).take 14).map BitVec.toNat).sum % 256 = 0x8E ∧
    ((frameFD4.take 11).map BitVec.toNat).sum % 256 = 0xB7 ∧ (0x01#8 : Byte).toNat = frameFD4.length - 12 ∧
    ((frameFD4.take 11).drop 10).map (· - 0x33#8) = 0x04#8 :: [] ∧ (0xD1#8 &&& 0x40#8 : Byte) ≠ 0#8 ∧
    (0x11#8 &&& 0x40#8 : Byte) = 0#8 := by decide +kernel

theorem witness_FrameRoundTrip : [0x00#8, 0xCC#8].length ≤ 200 ∧ (0x1F#8 : Byte).toNat < 32 := by decide

/-- S8: the first byte, the checksum byte, the end delimiter. -/
theorem witness_FrameTamperDetection : frameEncode 304257140001#48 ⟨false, 0x11#8, [0, 0, 0, 0]⟩ = .ok frameS1 ∧
    15 < frameS1.length ∧ frameS1[0]? ≠ some 0x69#8 ∧ frameS1[14]? ≠ some 0x90#8 ∧ frameS1[15]? ≠ some 0x17#8 ∧
    14 ≤ 10 + [0#8, 0#8, 0#8, 0#8].length ∧ 15 = 11 + [0#8, 0#8, 0#8, 0#8].length := by decide

theorem witness_EncodeSequenceBuildsTheFrame : State.reset.fault = 0#4 ∧ (List.replicate 200 0#8).length ≤ 200 ∧
    200 < (List.replicate 201 0#8).length := by
  simp only [List.length_replicate]
  decide

theorem witness_DecodeSequenceAgrees : State.reset.fault = 0#4 := by decide

/-- Of DecodeSequenceAgrees, the receive path: Verify fails and succeeds (S9); the response is in the block, and the
spare place lies right behind it, and at the end of the buffer. -/
theorem witness_DecodeSequenceAgrees_receive :
    frameVerify frameS1 (frameFD2.take 9) = some (.error .framing) ∧ frameVerify frameS1 frameFD2 = some (.ok ()) ∧
    (holding 0 frameFD2).fault = 0#4 ∧ 7 ≤ frameS1.length ∧ frameFD2.length ≤ 256 ∧
    memRead (holding 0 frameFD2) 0 frameFD2.length = frameFD2 ∧
    frameEncode 304257140001#48 ⟨false, 0x11#8, [0, 0, 0, 0]⟩ = .ok frameS1 ∧
    frameFD2.length ≤ (20#8 : Byte).toNat ∧ (250#8 : Byte).toNat + 6 ≤ 256 := by decide

/-- Every clause: S9's responses, stored at base 0. -/
theorem witness_VerifyComparesTheAddress : 7 ≤ frameS1.length ∧ (frameFD2.take 9).length < 10 ∧
    10 ≤ (frameFD2.take 10).length ∧ (frameFD2.set 6 0x31#8)[6]? ≠ frameS1[6]? ∧
    (∀ k, 1 ≤ k → k < 7 → frameFD2[k]? = frameS1[k]?) ∧ frameFD2.length ≤ 256 ∧
    (holding 0 frameFD2).fault = 0#4 ∧ memRead (holding 0 frameFD2) 0 frameFD2.length = frameFD2 := by decide

end Sys2Proof.Tests
end

namespace Sys2Proof.Machine

/-! ## The state: what every step keeps, and who may change what (10_state.md)

### What a command can end in, as one rule each for the commands with and without an extent -/

/-- What holds after a command without an extent: it need only hold of the effect and of the state before. -/
theorem whileRunning_elim {P : State → Prop} {e : State → State} {s t : State} (h : whileRunning e s = .next t)
    (running : P (e s)) (halted : P s) : P t := by
  rcases whileRunning_next h with ⟨-, rfl⟩ | ⟨-, rfl⟩
  · exact running
  · exact halted

/-- What holds after a range command: of the effect inside the buffer, of the state with `F_RANGE`, of the state
before. -/
theorem range_elim {P : State → Prop} {a len : Nat} {e : State → State} {s t : State}
    (h : whileRunning (withinBuffer a len e) s = .next t)
    (inside : a + len ≤ Config.fbSize → P (e s)) (outside : P { s with fault := 2#4 }) (halted : P s) : P t := by
  rcases range_next h with ⟨-, hl, rfl⟩ | ⟨-, -, rfl⟩ | ⟨-, rfl⟩
  · exact inside hl
  · exact outside
  · exact halted

/-! ### The frame of every command -/

theorem whileRunning_frame {F e : State → State} {s t : State} (h : whileRunning e s = .next t)
    (running : e s = F (e s)) (halted : s = F s) : t = F t :=
  whileRunning_elim (P := fun u => u = F u) h running halted

theorem range_frame {F e : State → State} {a len : Nat} {s t : State}
    (h : whileRunning (withinBuffer a len e) s = .next t) (inside : e s = F (e s))
    (outside : { s with fault := 2#4 } = F { s with fault := 2#4 }) (halted : s = F s) : t = F t :=
  range_elim (P := fun u => u = F u) h (fun _ => inside) outside halted

/-- `s` with the fields that a command may write taken from `t`: the writers of R21 and R27, the Writes column of R51,
and FAULT for the ten range commands (R182). -/
def withWritten (i : Instr) (s t : State) : State :=
  match i with
  | .nop => s
  | .st _ _ | .ctlpk _ _ => { s with fb := t.fb }
  | .ld _ => { s with d := t.d }
  | .setv => { s with v := t.v }
  | .chksum _ _ | .chkadd _ _ => { s with ck := t.ck, fault := t.fault }
  | .chkvfy _ _ => { s with ck := t.ck, ckok := t.ckok, fault := t.fault }
  | .chkput _ _ => { s with ck := t.ck, fb := t.fb, fault := t.fault }
  | .bcdenc _ _ | .bcdencr _ _ => { s with bcdovf := t.bcdovf, fb := t.fb, fault := t.fault }
  | .bcddec _ _ _ | .bcddecr _ _ _ =>
    { s with v := t.v, bcdinv := t.bcdinv, bcdovf := t.bcdovf, fault := t.fault }
  | .obf _ _ | .deobf _ _ => { s with fb := t.fb, fault := t.fault }
  | .ctlx _ => { s with dir := t.dir, errf := t.errf, fup := t.fup, fc := t.fc }

theorem storeEncoded_frame (a size : Byte) (bytes : List Byte) (s : State) :
    storeEncoded a size bytes s = { s with
      bcdovf := (storeEncoded a size bytes s).bcdovf
      fb := (storeEncoded a size bytes s).fb
      fault := (storeEncoded a size bytes s).fault } := by
  rw [storeEncoded, memWrite_frame]
  rfl

theorem storeDecoded_frame (r : Nat × Bool) (s : State) :
    storeDecoded r s = { s with
      v := (storeDecoded r s).v
      bcdinv := (storeDecoded r s).bcdinv
      bcdovf := (storeDecoded r s).bcdovf
      fault := (storeDecoded r s).fault } := by
  unfold storeDecoded
  split <;> rfl

theorem mapRange_frame (f : Byte → Byte) (a n : Byte) (s : State) :
    mapRange f a n s = { s with fb := (mapRange f a n s).fb, fault := (mapRange f a n s).fault } := by
  rw [mapRange, memWrite_frame]

/-- A command changes nothing but the fields it may write, on a running block and on a halted one. -/
theorem exec_frame {i : Instr} {s t : State} (h : exec i s = .next t) : t = withWritten i s t := by
  cases i with
  | nop => exact whileRunning_frame h rfl rfl
  | st a b => exact whileRunning_frame h rfl rfl
  | ld a => exact whileRunning_frame h rfl rfl
  | setv => exact whileRunning_frame h rfl rfl
  | chksum a n => exact range_frame h rfl rfl rfl
  | chkadd a n => exact range_frame h rfl rfl rfl
  | chkvfy a n => exact range_frame h rfl rfl rfl
  | chkput a n => exact range_frame h rfl rfl rfl
  | bcdenc a size => exact range_frame h (storeEncoded_frame _ _ _ _) rfl rfl
  | bcdencr a size => exact range_frame h (storeEncoded_frame _ _ _ _) rfl rfl
  | bcddec a len size => exact range_frame h (storeDecoded_frame _ _) rfl rfl
  | bcddecr a len size => exact range_frame h (storeDecoded_frame _ _) rfl rfl
  | obf a n => exact range_frame h (mapRange_frame _ _ _ _) rfl rfl
  | deobf a n => exact range_frame h (mapRange_frame _ _ _ _) rfl rfl
  | ctlx a => exact whileRunning_frame h rfl rfl
  | ctlpk a f => exact whileRunning_frame h rfl rfl

/-! ### Good states (R31, R38): one rule per operation, then every command, every move, every step -/

theorem good_reset : State.reset.Good := ⟨by decide, wf_reset⟩

theorem good_resetBlock (s : State) : (resetBlock s).Good := ⟨by simp, wf_reset⟩

/-- Goodness looks at FAULT and at the cells alone. -/
theorem State.Good.of_eq {s t : State} (hs : s.Good) (hfault : t.fault = s.fault) (hfb : t.fb = s.fb) : t.Good := by
  rwa [State.Good, hfault, hfb]

theorem State.Good.rangeFault {s : State} (hs : s.Good) : State.Good { s with fault := 2#4 } :=
  ⟨Nat.le_refl 2, hs.2⟩

theorem State.Good.raiseFault {s : State} (hs : s.Good) (f : Fault) : (raiseFault f s).Good := by
  unfold Machine.raiseFault
  split
  · exact ⟨faultCode_le f, hs.2⟩
  · exact hs

theorem State.Good.fbWrite {s : State} (hs : s.Good) {i : Nat} (x : Byte) (hi : i < Config.fbSize) :
    (fbWrite i x s).Good :=
  ⟨hs.1, wf_fbWrite x hs.2 hi⟩

theorem State.Good.memWrite {s : State} (hs : s.Good) {a : Nat} {xs : List Byte} (h : a + xs.length ≤ Config.fbSize) :
    (memWrite a xs s).Good :=
  ⟨by simpa using hs.1, wf_memWrite hs.2 h⟩

theorem State.Good.storeEncoded {s : State} (hs : s.Good) {a size : Byte} {bytes : List Byte}
    (hlen : bytes.length = countOf size) (h : indexOf a + plainExtent size ≤ Config.fbSize) :
    (storeEncoded a size bytes s).Good :=
  (hs.memWrite (hlen ▸ h)).of_eq rfl rfl

theorem State.Good.storeDecoded {s : State} (hs : s.Good) (r : Nat × Bool) : (storeDecoded r s).Good := by
  unfold Machine.storeDecoded
  split <;> exact hs.of_eq rfl rfl

theorem State.Good.mapRange {s : State} (hs : s.Good) (f : Byte → Byte) {a n : Byte}
    (h : indexOf a + plainExtent n ≤ Config.fbSize) : (mapRange f a n s).Good :=
  hs.memWrite (by rwa [List.length_map, rangeBytes, memRead_length])

theorem indexOf_lt (a : Byte) : indexOf a < Config.fbSize := a.isLt

theorem checksumIndex_lt {a n : Byte} (h : indexOf a + extentWithChecksum n ≤ Config.fbSize) :
    checksumIndex a n < Config.fbSize := h

/-- Every command keeps a good state good: what it writes lies inside the buffer, its fault is code 2. -/
theorem exec_keeps_good {i : Instr} {s t : State} (hs : s.Good) (h : exec i s = .next t) : t.Good := by
  cases i with
  | nop => exact whileRunning_elim h hs hs
  | st a b => exact whileRunning_elim h (hs.fbWrite _ (indexOf_lt a)) hs
  | ld a => exact whileRunning_elim h (hs.of_eq rfl rfl) hs
  | setv => exact whileRunning_elim h (hs.of_eq rfl rfl) hs
  | chksum a n => exact range_elim h (fun _ => hs.of_eq rfl rfl) hs.rangeFault hs
  | chkadd a n => exact range_elim h (fun _ => hs.of_eq rfl rfl) hs.rangeFault hs
  | chkvfy a n => exact range_elim h (fun _ => hs.of_eq rfl rfl) hs.rangeFault hs
  | chkput a n =>
    refine range_elim h (fun hl => State.Good.fbWrite ?_ _ (checksumIndex_lt hl)) hs.rangeFault hs
    exact hs.of_eq rfl rfl
  | bcdenc a size => exact range_elim h (hs.storeEncoded (by simp)) hs.rangeFault hs
  | bcdencr a size => exact range_elim h (hs.storeEncoded (by simp)) hs.rangeFault hs
  | bcddec a len size => exact range_elim h (fun _ => hs.storeDecoded _) hs.rangeFault hs
  | bcddecr a len size => exact range_elim h (fun _ => hs.storeDecoded _) hs.rangeFault hs
  | obf a n => exact range_elim h (hs.mapRange _) hs.rangeFault hs
  | deobf a n => exact range_elim h (hs.mapRange _) hs.rangeFault hs
  | ctlx a => exact whileRunning_elim h (hs.of_eq rfl rfl) hs
  | ctlpk a f => exact whileRunning_elim h (hs.fbWrite _ (indexOf_lt a)) hs

/-! ### One word, one move, one step -/

/-- A word that decodes runs its command (R186). -/
theorem runWord_of_decode {cmd : CmdWord} {i : Instr} (h : decode cmd = .ok i) (s : State) :
    runWord cmd s = exec i s := by
  simp [runWord, h]

/-- What a word can do: it is illegal and raises `F_ILLEGAL`, or it runs the command it decodes to (R74, R186). -/
theorem runWord_next {cmd : CmdWord} {s t : State} (h : runWord cmd s = .next t) :
    (∃ e, decode cmd = .error e ∧ t = raiseFault .illegal s) ∨ ∃ i, decode cmd = .ok i ∧ exec i s = .next t := by
  unfold runWord at h
  split at h
  next e he => exact .inl ⟨e, he, (next_inj h).symm⟩
  next i hi => exact .inr ⟨i, hi, h⟩

theorem runWord_keeps_good {cmd : CmdWord} {s t : State} (hs : s.Good) (h : runWord cmd s = .next t) : t.Good := by
  obtain ⟨-, -, rfl⟩ | ⟨i, -, hi⟩ := runWord_next h
  · exact hs.raiseFault _
  · exact exec_keeps_good hs hi

/-- No word makes or takes a move of the host. -/
theorem runWord_host {cmd : CmdWord} {s t : State} (h : runWord cmd s = .next t) : t.host = s.host := by
  obtain ⟨-, -, rfl⟩ | ⟨i, -, hi⟩ := runWord_next h
  · rw [raiseFault_frame]
  · obtain ⟨hhost, -, -⟩ := exec_input hi
    exact hhost

theorem takeMove_keeps_good {m : HostMove} {s t : State} (hs : s.Good) (h : takeMove m s = .next t) : t.Good := by
  cases m with
  | command cmd opd => exact runWord_keeps_good (s := setOpd opd s) (hs.of_eq rfl rfl) h
  | reset => exact next_inj h ▸ good_resetBlock s

theorem takeMove_host {m : HostMove} {s t : State} (h : takeMove m s = .next t) : t.host = s.host := by
  cases m with
  | command cmd opd => exact runWord_host (s := setOpd opd s) h
  | reset => exact next_inj h ▸ resetBlock_host s

/-- A step with a move left is the answer to that move, taken off the list (R26, R59). -/
theorem step_of_host {s : State} {m : HostMove} {ms : List HostMove} (h : s.host = m :: ms) :
    step s = takeMove m (setHost ms s) := by
  simp [step, nextMove, h]

/-- Settles O35: every command keeps a good state good, hence so do every move and every step. -/
theorem stepKeepsGood : Obligations.StepKeepsGood := by
  intro s t hs h
  cases hm : s.host with
  | nil =>
    rw [step_idle hm] at h
    exact next_inj h ▸ hs
  | cons m ms =>
    rw [step_of_host hm] at h
    exact takeMove_keeps_good (s := setHost ms s) (hs.of_eq rfl rfl) h

/-- Settles O38: no command and no reset touches the list that the step has left. -/
theorem hostMovesAreTakenInOrder : Obligations.HostMovesAreTakenInOrder := by
  refine ⟨fun s t m ms hm h => ?_, fun s => step_idle⟩
  rw [step_of_host hm] at h
  exact takeMove_host h

/-- Settles O6: the move is taken off the list and its word, which decodes, runs its command. -/
theorem stepRunsTheDecodedCommand : Obligations.StepRunsTheDecodedCommand := by
  intro s cmd opd rest i hm hd _
  rw [step_command hm, runWord_of_decode hd]

/-- Settles O33: the step is `resetBlock`, whose bytes are the free values of the next reset count. -/
theorem resetMoveClearsTheBlock : Obligations.ResetMoveClearsTheBlock := by
  intro s rest hm
  exact ⟨_, step_reset hm, rfl, fbRead_resetBlock _⟩

/-- Settles O34, by evaluating the one closed state it speaks of. -/
theorem resetStateIsAllZero : Obligations.ResetStateIsAllZero := by
  unfold Obligations.ResetStateIsAllZero
  decide

/-- Settles O36: FAULT is 0 and no cell is listed. -/
theorem resetIsGood : Obligations.ResetIsGood := good_reset

/-- Settles O41: by its frame a command changes nothing but the fields it may write, and each command that may write a
register is listed as a writer of that register. -/
theorem registersChangeOnlyByTheirWriters : Obligations.RegistersChangeOnlyByTheirWriters := by
  intro i s t h
  rw [exec_frame h]
  cases i <;> simp [withWritten]

/-! ### The views (R29, R30) -/

theorem ctlf_layout (s : State) : (ctlf s).getLsbD 7 = s.dir ∧ (ctlf s).getLsbD 6 = s.errf ∧
    (ctlf s).getLsbD 5 = s.fup ∧ (ctlf s).extractLsb' 0 5 = s.fc := by
  refine ⟨?_, ?_, ?_, BitVec.extractLsb'_append_eq_right⟩ <;>
    simp only [ctlf, BitVec.getLsbD_append, BitVec.getLsbD_ofBool] <;> rfl

/-- The bits of STATUS above its three flags and the zero bit are those of FAULT. -/
theorem status_getLsbD_add_four (s : State) (k : Nat) : (status s).getLsbD (4 + k) = s.fault.getLsbD k := by
  simp only [status, BitVec.getLsbD_append]
  rw [if_neg (by omega), if_neg (by omega), if_neg (by omega), if_neg (by omega)]
  congr 1
  omega

theorem status_layout (s : State) : (status s).getLsbD 0 = s.ckok ∧ (status s).getLsbD 1 = s.bcdinv ∧
    (status s).getLsbD 2 = s.bcdovf ∧ (status s).getLsbD 3 = false ∧ (status s).extractLsb' 4 4 = s.fault := by
  refine ⟨?_, ?_, ?_, ?_, BitVec.eq_of_getLsbD_eq fun k hk => ?_⟩
  case refine_5 => rw [BitVec.getLsbD_extractLsb', status_getLsbD_add_four, decide_eq_true hk, Bool.true_and]
  all_goals simp only [status, BitVec.getLsbD_append, BitVec.getLsbD_ofBool]; rfl

/-- CTLF shows the control byte that was split into the four fields (R29). -/
theorem ctlf_setControl (x : Byte) (s : State) :
    ctlf (setControl (controlDir x) (controlErr x) (controlFup x) (controlFc x) s) = x :=
  control_fields_whole x

/-- Settles O39: the layout of the view, and CTLX of a running block, whose four fields make up the byte read. -/
theorem controlViewIsTheByteRead : Obligations.ControlViewIsTheByteRead :=
  ⟨ctlf_layout, fun _ _ hs => ⟨_, whileRunning_running hs, ctlf_setControl _ _⟩⟩

/-- Settles O40, bit by bit of the joined fields. -/
theorem statusLayout : Obligations.StatusLayout := status_layout

end Sys2Proof.Machine

namespace Sys2Proof.Machine

/-! ## The frame buffer: which bytes a command writes and which it depends on (20_memory.md R51)

### Bytes outside the Writes column keep their value -/

/-- A byte that the effect of a command without an extent leaves alone reads as before. -/
theorem whileRunning_fbRead {e : State → State} {s t : State} {k : Nat} (h : whileRunning e s = .next t)
    (running : fbRead (e s) k = fbRead s k) : fbRead t k = fbRead s k :=
  whileRunning_elim (P := fun u => fbRead u k = fbRead s k) h running rfl

/-- The same of a range command; taking `F_RANGE` changes no byte. -/
theorem range_fbRead {e : State → State} {a len : Nat} {s t : State} {k : Nat}
    (h : whileRunning (withinBuffer a len e) s = .next t) (inside : fbRead (e s) k = fbRead s k) :
    fbRead t k = fbRead s k :=
  range_elim (P := fun u => fbRead u k = fbRead s k) h (fun _ => inside) rfl rfl

theorem fbRead_fbWrite_of_ne {i k : Nat} (x : Byte) (s : State) (h : k ≠ i) : fbRead (fbWrite i x s) k = fbRead s k := by
  rw [fbRead_fbWrite, if_neg h]

theorem fbRead_storeEncoded_outside {a size : Byte} {bytes : List Byte} (s : State) {k : Nat}
    (hlen : bytes.length = size.toNat) (h : ¬ (a.toNat ≤ k ∧ k < a.toNat + size.toNat)) :
    fbRead (storeEncoded a size bytes s) k = fbRead s k := by
  rw [storeEncoded, fbRead_setBcdovf, fbRead_memWrite_outside]
  simp only [indexOf]
  omega

theorem fbRead_mapRange_outside (f : Byte → Byte) {a n : Byte} (s : State) {k : Nat}
    (h : ¬ (a.toNat ≤ k ∧ k < a.toNat + n.toNat)) : fbRead (mapRange f a n s) k = fbRead s k := by
  rw [fbRead_mapRange, if_neg h]

/-- A byte outside the command's column Writes of R51 reads as before. By its frame a command with an empty column
leaves the whole buffer alone. -/
theorem exec_fbRead_of_not_writesAt {i : Instr} {s t : State} {k : Nat} (h : exec i s = .next t)
    (hk : ¬ writesAt i k) : fbRead t k = fbRead s k := by
  cases i with
  | st a b => exact whileRunning_fbRead h (fbRead_fbWrite_of_ne _ _ hk)
  | ctlpk a f => exact whileRunning_fbRead h (fbRead_fbWrite_of_ne _ _ hk)
  | chkput a n => exact range_fbRead h (fbRead_fbWrite_of_ne _ _ hk)
  | bcdenc a size => exact range_fbRead h (fbRead_storeEncoded_outside s (by simp [countOf]) hk)
  | bcdencr a size => exact range_fbRead h (fbRead_storeEncoded_outside s (by simp [countOf]) hk)
  | obf a n => exact range_fbRead h (fbRead_mapRange_outside _ s hk)
  | deobf a n => exact range_fbRead h (fbRead_mapRange_outside _ s hk)
  | nop | ld | setv | chksum | chkadd | chkvfy | bcddec | bcddecr | ctlx =>
    rw [exec_frame h]
    rfl

/-- Settles O42: a byte outside the command's column reads as before, so one that reads differently stands in it. -/
theorem bytesChangeOnlyWhereTabled : Obligations.BytesChangeOnlyWhereTabled := by
  intro i s t k h hne
  by_contra hk
  exact hne (exec_fbRead_of_not_writesAt h hk)

/-! ### States that differ in bytes alone, and what the operations make of them

Every effect of a command is built from reads of the buffer, register updates and stretches of bytes written. Two states
with equal registers that read alike where the effect reads end with equal registers, and alike where it writes. -/

/-- The states are equal but for the frame buffer, which reads alike at every index of `W`. -/
structure AlikeAt (W : Nat → Prop) (s s' : State) : Prop where
  registers : s' = { s with fb := s'.fb, resets := s'.resets }
  bytes : ∀ k, W k → fbRead s' k = fbRead s k

section
variable {R W : Nat → Prop} {s s' t t' : State}

theorem AlikeAt.mono (h : AlikeAt R s s') (hW : ∀ k, W k → R k) : AlikeAt W s s' :=
  ⟨h.registers, fun k hk => h.bytes k (hW k hk)⟩

/-- What is left for a command that writes no byte. -/
theorem AlikeAt.nowhere (h : AlikeAt R s s') : AlikeAt (fun _ => False) s s' :=
  h.mono fun _ => False.elim

/-! #### What an effect reads -/

theorem AlikeAt.v_eq (h : AlikeAt R s s') : s'.v = s.v := by rw [h.registers]

theorem AlikeAt.ck_eq (h : AlikeAt R s s') : s'.ck = s.ck := by rw [h.registers]

theorem AlikeAt.fault_eq (h : AlikeAt R s s') : s'.fault = s.fault := by rw [h.registers]

theorem AlikeAt.opd_eq (h : AlikeAt R s s') : s'.opd = s.opd := by rw [h.registers]

theorem AlikeAt.memRead_eq (h : AlikeAt R s s') {a n : Nat} (hR : ∀ k, a ≤ k ∧ k < a + n → R k) :
    memRead s' a n = memRead s a n :=
  memRead_congr fun j hj => h.bytes _ (hR _ (by omega))

theorem AlikeAt.rangeBytes_eq (h : AlikeAt R s s') {a n : Byte}
    (hR : ∀ k, a.toNat ≤ k ∧ k < a.toNat + n.toNat → R k) : rangeBytes s' a n = rangeBytes s a n :=
  h.memRead_eq hR

theorem AlikeAt.sum8_eq (h : AlikeAt R s s') {a n : Byte} (hR : ∀ k, a.toNat ≤ k ∧ k < a.toNat + n.toNat → R k) :
    sum8 (rangeBytes s' a n) = sum8 (rangeBytes s a n) :=
  congrArg sum8 (h.rangeBytes_eq hR)

/-- A decode depends on the window of its string alone (R122). -/
theorem decodeBCD_congr {xs ys : List Byte} {k : Nat} (h : decodeWindow xs k = decodeWindow ys k) :
    decodeBCD xs k = decodeBCD ys k := by
  simp only [decodeBCD, h]

/-- In table order the window is the end of the range (R123). -/
theorem AlikeAt.decodeBCD_eq {a len size : Byte} (h : AlikeAt (readsAt (.bcddec a len size)) s s') :
    decodeBCD (rangeBytes s' a len) (countOf size) = decodeBCD (rangeBytes s a len) (countOf size) := by
  apply decodeBCD_congr
  simp only [rangeBytes, decodeWindow_memRead, indexOf, countOf]
  refine h.memRead_eq fun k hk => ?_
  simp only [readsAt]
  omega

/-- In wire order the window is the start of the range (R127). -/
theorem AlikeAt.decodeBCD_reverse_eq {a len size : Byte} (h : AlikeAt (readsAt (.bcddecr a len size)) s s') :
    decodeBCD (rangeBytes s' a len).reverse (countOf size) = decodeBCD (rangeBytes s a len).reverse (countOf size) := by
  apply decodeBCD_congr
  simp only [rangeBytes, decodeWindow_reverse]
  exact congrArg List.reverse (h.memRead_eq fun _ hk => hk)

/-! #### What an effect writes: the same value in both states -/

theorem AlikeAt.setV (h : AlikeAt W s s') {x x' : Value} (hx : x' = x) : AlikeAt W (setV x s) (setV x' s') :=
  hx ▸ ⟨congrArg (Machine.setV x') h.registers, h.bytes⟩

theorem AlikeAt.setCk (h : AlikeAt W s s') {x x' : Byte} (hx : x' = x) : AlikeAt W (setCk x s) (setCk x' s') :=
  hx ▸ ⟨congrArg (Machine.setCk x') h.registers, h.bytes⟩

theorem AlikeAt.setD (h : AlikeAt W s s') {x x' : Byte} (hx : x' = x) : AlikeAt W (setD x s) (setD x' s') :=
  hx ▸ ⟨congrArg (Machine.setD x') h.registers, h.bytes⟩

theorem AlikeAt.setCkok (h : AlikeAt W s s') {x x' : Bool} (hx : x' = x) : AlikeAt W (setCkok x s) (setCkok x' s') :=
  hx ▸ ⟨congrArg (Machine.setCkok x') h.registers, h.bytes⟩

theorem AlikeAt.setBcdinv (h : AlikeAt W s s') (x : Bool) : AlikeAt W (setBcdinv x s) (setBcdinv x s') :=
  ⟨congrArg (Machine.setBcdinv x) h.registers, h.bytes⟩

theorem AlikeAt.setBcdovf (h : AlikeAt W s s') {x x' : Bool} (hx : x' = x) :
    AlikeAt W (setBcdovf x s) (setBcdovf x' s') :=
  hx ▸ ⟨congrArg (Machine.setBcdovf x') h.registers, h.bytes⟩

theorem AlikeAt.setFault (h : AlikeAt W s s') (x : BitVec 4) : AlikeAt W (setFault x s) (setFault x s') :=
  ⟨congrArg (Machine.setFault x) h.registers, h.bytes⟩

/-- The four control fields of one byte. -/
theorem AlikeAt.setControl (h : AlikeAt W s s') {x x' : Byte} (hx : x' = x) :
    AlikeAt W (setControl (controlDir x) (controlErr x) (controlFup x) (controlFc x) s)
      (setControl (controlDir x') (controlErr x') (controlFup x') (controlFc x') s') :=
  hx ▸ ⟨congrArg (Machine.setControl _ _ _ _) h.registers, h.bytes⟩

theorem AlikeAt.storeDecoded (h : AlikeAt W s s') {r r' : Nat × Bool} (hr : r' = r) :
    AlikeAt W (storeDecoded r s) (storeDecoded r' s') := by
  subst hr
  unfold Machine.storeDecoded
  split
  · exact ((h.setV rfl).setBcdinv _).setBcdovf rfl
  · exact ((h.setV rfl).setBcdinv _).setBcdovf rfl

theorem AlikeAt.fbWrite (h : AlikeAt R s s') (i : Nat) {x x' : Byte} (hx : x' = x) :
    AlikeAt (· = i) (fbWrite i x s) (fbWrite i x' s') where
  registers := congrArg (setFb _) h.registers
  bytes k hk := by simp only [fbRead_fbWrite, if_pos hk, hx]

theorem AlikeAt.memWrite (h : AlikeAt R s s') (a : Nat) {xs xs' : List Byte} (hxs : xs' = xs) :
    AlikeAt (fun k => a ≤ k ∧ k < a + xs.length) (memWrite a xs s) (memWrite a xs' s') where
  registers := by
    rw [memWrite_frame a xs s, memWrite_frame a xs' s', h.registers]
  bytes k hk := by
    subst hxs
    simp only [fbRead_memWrite, dif_pos hk]

theorem AlikeAt.storeEncoded (h : AlikeAt R s s') {a size : Byte} {bytes bytes' : List Byte} (hb : bytes' = bytes)
    (hlen : bytes.length = size.toNat) :
    AlikeAt (fun k => a.toNat ≤ k ∧ k < a.toNat + size.toNat) (storeEncoded a size bytes s)
      (storeEncoded a size bytes' s') := by
  rw [← hlen]
  exact (h.memWrite _ hb).setBcdovf (by rw [h.v_eq])

theorem AlikeAt.mapRange (f : Byte → Byte) {a n : Byte}
    (h : AlikeAt (fun k => a.toNat ≤ k ∧ k < a.toNat + n.toNat) s s') :
    AlikeAt (fun k => a.toNat ≤ k ∧ k < a.toNat + n.toNat) (mapRange f a n s) (mapRange f a n s') where
  registers := (h.memWrite (indexOf a) (congrArg (List.map f) (h.rangeBytes_eq fun _ hk => hk))).registers
  bytes k hk := by simp only [fbRead_mapRange, if_pos hk, h.bytes k hk]

/-! ### Alike states under a command -/

theorem AlikeAt.raiseFault (h : AlikeAt W s s') (f : Fault) : AlikeAt W (raiseFault f s) (raiseFault f s') := by
  by_cases hf : s.fault = 0#4
  · rw [raiseFault_running hf, raiseFault_running (h.fault_eq.trans hf)]
    exact h.setFault _
  · rwa [raiseFault_halted hf, raiseFault_halted (h.fault_eq ▸ hf)]

/-- The range rule looks at no state: either both extents fit or both raise `F_RANGE` (R52). -/
theorem withinBuffer_alike {a len : Nat} {e : State → State} (hs : AlikeAt R s s') (inside : AlikeAt W (e s) (e s')) :
    AlikeAt (fun k => a + len ≤ Config.fbSize ∧ W k) (withinBuffer a len e s) (withinBuffer a len e s') := by
  by_cases hl : a + len ≤ Config.fbSize
  · rw [withinBuffer_inside hl, withinBuffer_inside hl]
    exact inside.mono fun _ => And.right
  · rw [withinBuffer_outside (by omega), withinBuffer_outside (by omega)]
    exact (hs.raiseFault _).mono fun _ hk => absurd hk.1 hl

/-- The halt looks at FAULT alone: alike states both run or both do not (R184). -/
theorem whileRunning_alike {e : State → State} (hs : AlikeAt R s s') (h : whileRunning e s = .next t)
    (h' : whileRunning e s' = .next t') (running : AlikeAt W (e s) (e s')) :
    AlikeAt (fun k => s.fault = 0#4 ∧ W k) t t' := by
  by_cases hf : s.fault = 0#4
  · rw [whileRunning_running hf] at h
    rw [whileRunning_running (hs.fault_eq.trans hf)] at h'
    obtain rfl := next_inj h
    obtain rfl := next_inj h'
    exact running.mono fun _ => And.right
  · rw [whileRunning_halted hf] at h
    rw [whileRunning_halted (hs.fault_eq ▸ hf)] at h'
    obtain rfl := next_inj h
    obtain rfl := next_inj h'
    exact hs.mono fun _ hk => absurd hk.1 hf

/-- The rule for a command whose extent always fits, whatever is asked of it. -/
theorem plain_alike {P : Prop} {e : State → State} (hs : AlikeAt R s s') (h : whileRunning e s = .next t)
    (h' : whileRunning e s' = .next t') (running : AlikeAt W (e s) (e s')) :
    AlikeAt (fun k => s.fault = 0#4 ∧ P ∧ W k) t t' :=
  whileRunning_alike hs h h' (running.mono fun _ => And.right)

/-- The rule for a range command. -/
theorem range_alike {a len : Nat} {e : State → State} (hs : AlikeAt R s s')
    (h : whileRunning (withinBuffer a len e) s = .next t) (h' : whileRunning (withinBuffer a len e) s' = .next t')
    (inside : AlikeAt W (e s) (e s')) :
    AlikeAt (fun k => s.fault = 0#4 ∧ a + len ≤ Config.fbSize ∧ W k) t t' :=
  whileRunning_alike hs h h' (withinBuffer_alike hs inside)

/-- States alike at the command's column Reads go to states alike at its column Writes, where the command executes; and
alike but for the buffer where it does not. -/
theorem exec_alike {i : Instr} (hs : AlikeAt (readsAt i) s s') (h : exec i s = .next t) (h' : exec i s' = .next t') :
    AlikeAt (fun k => s.fault = 0#4 ∧ extentEnd i ≤ 256 ∧ writesAt i k) t t' := by
  cases i with
  | nop => exact plain_alike hs h h' hs.nowhere
  | st a b => exact plain_alike hs h h' (hs.fbWrite _ rfl)
  | ld a =>
    simp only [exec, execLd] at h h'
    exact plain_alike hs h h' (hs.nowhere.setD (hs.bytes _ rfl))
  | setv =>
    simp only [exec, execSetv] at h h'
    exact plain_alike hs h h' (hs.nowhere.setV hs.opd_eq)
  | chksum a n => exact range_alike hs h h' (hs.nowhere.setCk (hs.sum8_eq fun _ hk => hk))
  | chkadd a n =>
    exact range_alike hs h h' (hs.nowhere.setCk (congrArg₂ _ hs.ck_eq (hs.sum8_eq fun _ hk => hk)))
  | chkvfy a n =>
    have hsum := hs.sum8_eq (a := a) (n := n) fun _ hk => ⟨hk.1, hk.2.le⟩
    have hstored := hs.bytes (checksumIndex a n) ⟨Nat.le_add_right _ _, Nat.le_refl _⟩
    exact (range_alike hs h h' ((hs.nowhere.setCk hsum).setCkok (congrArg₂ _ hsum hstored)) :)
  | chkput a n =>
    have hsum := hs.sum8_eq (a := a) (n := n) fun _ hk => hk
    exact (range_alike hs h h' ((hs.setCk hsum).fbWrite _ hsum) :)
  | bcdenc a size => exact range_alike hs h h' (hs.storeEncoded (by rw [hs.v_eq]) (by simp [countOf]))
  | bcdencr a size => exact range_alike hs h h' (hs.storeEncoded (by rw [hs.v_eq]) (by simp [countOf]))
  | bcddec a len size => exact range_alike hs h h' (hs.nowhere.storeDecoded hs.decodeBCD_eq)
  | bcddecr a len size => exact range_alike hs h h' (hs.nowhere.storeDecoded hs.decodeBCD_reverse_eq)
  | obf a n => exact range_alike hs h h' (AlikeAt.mapRange _ hs)
  | deobf a n => exact range_alike hs h h' (AlikeAt.mapRange _ hs)
  | ctlx a =>
    simp only [exec, execCtlx] at h h'
    exact plain_alike hs h h' (hs.nowhere.setControl (hs.bytes _ rfl))
  | ctlpk a f => exact plain_alike hs h h' (hs.fbWrite _ rfl)

end

/-- Settles O43: the two states are alike at the bytes read, so the next states are alike at the bytes written; no
command touches the count of resets. -/
theorem resultsDependOnlyOnBytesRead : Obligations.ResultsDependOnlyOnBytesRead := by
  intro i s s' t t' hregs hreads h h'
  have ht := exec_alike ⟨hregs, hreads⟩ h h'
  obtain ⟨-, -, hresets⟩ := exec_input h'
  exact ⟨hresets ▸ ht.registers, fun k hk hf he => ht.bytes k ⟨hf, he, hk⟩⟩

end Sys2Proof.Machine

namespace Sys2Proof.Machine

open Laws

/-! ## The command word: opcode table, decoder and encoder (30_encoding.md)

### A word and its four fields -/

/-- Two joined words are equal when their opcodes and their operand fields are. -/
theorem joinWord_inj {op op' : Byte} {w w' : Fields} : joinWord op w = joinWord op' w' ↔ op = op' ∧ w = w' := by
  refine ⟨fun h => ⟨?_, ?_⟩, fun ⟨hop, hw⟩ => hop ▸ hw ▸ rfl⟩
  · simpa only [wordOp_joinWord] using congrArg wordOp h
  · simpa only [wordFields_joinWord] using congrArg wordFields h

/-- Joined words are and-ed field by field. -/
theorem joinWord_and (op op' : Byte) (w w' : Fields) :
    joinWord op w &&& joinWord op' w' = joinWord (op &&& op') ⟨w.a &&& w'.a, w.b &&& w'.b, w.c &&& w'.c⟩ := by
  have hthree : op ++ w.a ++ w.b &&& op' ++ w'.a ++ w'.b = (op &&& op') ++ (w.a &&& w'.a) ++ (w.b &&& w'.b) := by
    rw [BitVec.and_append, BitVec.and_append]
  exact BitVec.and_append.trans (congrArg (· ++ (w.c &&& w'.c)) hthree)

@[simp] theorem wordOp_encode (i : Instr) : wordOp (encode i) = opcodeOf i := wordOp_joinWord _ _

@[simp] theorem wordFields_encode (i : Instr) : wordFields (encode i) = i.fields := wordFields_joinWord _ _

/-! ### Decoder and encoder are inverse to each other -/

/-- A term of `Instr` holds no operand that its format does not use (log 13). -/
theorem instr_wellFormed (i : Instr) : i.WellFormed = true := by
  cases i <;> rfl

/-- The row of a command's opcode has the command's format, whatever the operand fields. -/
theorem opcodeRow_opcodeOf (i : Instr) (w : Fields) : ∃ j, opcodeRow (opcodeOf i) w = some (i.format, j) := by
  cases i <;> exact ⟨_, rfl⟩

/-- The row of a command's opcode makes the command of the command's own fields. -/
theorem opcodeRow_fields (i : Instr) : opcodeRow (opcodeOf i) i.fields = some (i.format, i) := by
  cases i <;> rfl

/-- A word is a command when its opcode's row makes that command and its unused fields are zero (R74). -/
theorem decode_eq_ok_iff_row {w : CmdWord} {i : Instr} :
    decode w = .ok i ↔
      opcodeRow (wordOp w) (wordFields w) = some (i.format, i) ∧ i.format.accepts (wordFields w) = true := by
  unfold decode
  cases hrow : opcodeRow (wordOp w) (wordFields w) with
  | none => simp
  | some r =>
    obtain ⟨f, j⟩ := r
    obtain ⟨-, rfl, -⟩ := opcodeRow_spec hrow
    simp only [Option.some.injEq, Prod.mk.injEq]
    split
    next hacc =>
      rw [Except.ok.injEq]
      exact ⟨fun hji => hji ▸ ⟨⟨rfl, rfl⟩, hacc⟩, fun ⟨⟨_, hji⟩, _⟩ => hji⟩
    next hacc => exact ⟨(nomatch ·), fun ⟨⟨hf, _⟩, hi⟩ => absurd (hf ▸ hi) hacc⟩

theorem decode_encode (i : Instr) : decode (encode i) = .ok i := by
  rw [decode_eq_ok_iff_row, wordOp_encode, wordFields_encode]
  exact ⟨opcodeRow_fields i, instr_wellFormed i⟩

theorem encode_of_decode {w : CmdWord} {i : Instr} (h : decode w = .ok i) : encode i = w := by
  obtain ⟨hrow, hacc⟩ := decode_eq_ok_iff_row.mp h
  obtain ⟨hop, -, hfields⟩ := opcodeRow_spec hrow
  rw [encode, hop, hfields hacc, joinWord_fields]

/-- A command has one word, and that word is the command's alone. -/
theorem decode_eq_ok_iff {w : CmdWord} {i : Instr} : decode w = .ok i ↔ w = encode i :=
  ⟨fun h => (encode_of_decode h).symm, fun h => h ▸ decode_encode i⟩

/-- Settles O1: the fields of the encoded word are the command's, and the command's row makes the command of them. -/
theorem decodeEncodeRoundTrip : Obligations.DecodeEncodeRoundTrip :=
  fun i _ => decode_encode i

/-- Settles O2: the command has the word's opcode and, as the unused fields are zero, the word's operand fields. -/
theorem encodeDecodeRoundTrip : Obligations.EncodeDecodeRoundTrip :=
  fun _ i h => ⟨instr_wellFormed i, encode_of_decode h⟩

/-! ### The match and mask columns (R72) -/

/-- The operand fields of a format's mask: all ones in each field the format does not use (R71). -/
def unusedMask : Format → Fields
  | .f0 => ⟨BitVec.allOnes 8, BitVec.allOnes 8, BitVec.allOnes 8⟩
  | .fa => ⟨0#8, BitVec.allOnes 8, BitVec.allOnes 8⟩
  | .fab => ⟨0#8, 0#8, BitVec.allOnes 8⟩
  | .fabc => ⟨0#8, 0#8, 0#8⟩

/-- A format accepts the fields that its mask takes to zero. -/
theorem unusedMask_and_eq_zero_iff (f : Format) (w : Fields) :
    Fields.mk (w.a &&& (unusedMask f).a) (w.b &&& (unusedMask f).b) (w.c &&& (unusedMask f).c) = ⟨0#8, 0#8, 0#8⟩ ↔
      f.accepts w = true := by
  cases f <;> simp [unusedMask, Format.accepts, and_assoc, -BitVec.reduceAllOnes]

/-- The two columns follow from the row's opcode and format. -/
theorem matchMask_eq (i : Instr) :
    matchMask i = (joinWord (opcodeOf i) ⟨0#8, 0#8, 0#8⟩, joinWord (BitVec.allOnes 8) (unusedMask i.format)) := by
  cases i <;> dsimp only [matchMask, opcodeOf, Instr.format, unusedMask] <;> decide

/-- A word matches a row when it has the row's opcode and zero in the fields the row's format does not use. -/
theorem rowMatches_iff {w : CmdWord} {row : Instr} :
    rowMatches w row = true ↔ wordOp w = opcodeOf row ∧ row.format.accepts (wordFields w) = true := by
  rw [rowMatches, beq_iff_eq, matchMask_eq, ← joinWord_fields w, joinWord_and, joinWord_inj,
    unusedMask_and_eq_zero_iff, joinWord_fields, BitVec.and_allOnes]

/-- The rows of the table have sixteen different opcodes. -/
theorem tableRows_opcode_inj :
    ∀ row ∈ tableRows, ∀ row' ∈ tableRows, opcodeOf row = opcodeOf row' → row = row' := by
  decide

/-- Settles O4: a word that matches a row has the row's opcode, and no two rows have the same. -/
theorem tableRowsAreExclusive : Obligations.TableRowsAreExclusive := by
  intro w row hrow row' hrow' h h'
  obtain ⟨hop, -⟩ := rowMatches_iff.mp h
  obtain ⟨hop', -⟩ := rowMatches_iff.mp h'
  exact tableRows_opcode_inj row hrow row' hrow' (hop.symm.trans hop')

/-! ### Legal and illegal words (R74) -/

/-- A word that matches a row is a command of that row. -/
theorem decode_of_rowMatches {w : CmdWord} {row : Instr} (h : rowMatches w row = true) :
    ∃ i, decode w = .ok i ∧ matchMask i = matchMask row := by
  obtain ⟨hop, hacc⟩ := rowMatches_iff.mp h
  obtain ⟨i, hi⟩ := opcodeRow_opcodeOf row (wordFields w)
  obtain ⟨hiop, hif, -⟩ := opcodeRow_spec hi
  refine ⟨i, decode_eq_ok_iff_row.mpr ⟨?_, ?_⟩, ?_⟩
  · rw [hop, hi, hif]
  · rw [hif, hacc]
  · rw [matchMask_eq, matchMask_eq, hiop, hif]

/-- Every command has its row in the table. -/
theorem exists_tableRow (i : Instr) : ∃ row ∈ tableRows, matchMask row = matchMask i := by
  cases i <;> simp [tableRows, matchMask]

/-- A legal word matches a row of the table. -/
theorem exists_rowMatches_of_decode {w : CmdWord} {i : Instr} (h : decode w = .ok i) :
    ∃ row ∈ tableRows, rowMatches w row = true := by
  obtain rfl := decode_eq_ok_iff.mp h
  obtain ⟨row, hrow, hmask⟩ := exists_tableRow i
  have hi : rowMatches (encode i) i = true :=
    rowMatches_iff.mpr ⟨wordOp_encode i, wordFields_encode i ▸ instr_wellFormed i⟩
  exact ⟨row, hrow, by rwa [rowMatches, hmask]⟩

/-- A word that matches no row raises `F_ILLEGAL` on a running block and does nothing else (R74, R181). -/
theorem runWord_of_no_row {w : CmdWord} {s : State} (h : ∀ row ∈ tableRows, rowMatches w row = false)
    (hs : s.fault = 0#4) : runWord w s = .next { s with fault := 1#4 } := by
  cases hd : decode w with
  | ok i =>
    obtain ⟨row, hrow, hmatch⟩ := exists_rowMatches_of_decode hd
    exact absurd hmatch (by simp [h row hrow])
  | error e =>
    simp only [runWord, hd, raiseFault_running hs]
    rfl

/-- Settles O3: a row's word decodes to a command of the row, and since every command has a row, a word without one
decodes to none. -/
theorem wordsOutsideTheTableAreIllegal : Obligations.WordsOutsideTheTableAreIllegal := by
  intro w
  refine ⟨fun row _ h => decode_of_rowMatches h, fun h opd rest s hs hm => ?_⟩
  rw [step_command hm]
  exact runWord_of_no_row h hs

/-- Settles O5, by evaluating the decoder on the fourteen words. -/
theorem writtenOutWordsDecode : Obligations.WrittenOutWordsDecode := by
  unfold Obligations.WrittenOutWordsDecode
  decide

/-! ### The string store (R78) -/

/-- The transaction of a command runs the command. -/
theorem takeMove_issue (i : Instr) (s : State) : takeMove (issue i) s = exec i (setOpd 0#64 s) :=
  runWord_of_decode (decode_encode i) _

theorem takeMoves_cons {m : HostMove} {ms : List HostMove} {s t : State} (h : takeMove m s = .next t) :
    takeMoves (m :: ms) s = takeMoves ms t := by
  simp only [takeMoves, h]

/-- ST at an index below 256 writes its byte there (R101). -/
theorem takeMove_issue_st {a : Nat} (x : Byte) {s : State} (hs : s.fault = 0#4) (ha : a < 256) :
    takeMove (issue (.st (BitVec.ofNat 8 a) x)) s = .next (fbWrite a x (setOpd 0#64 s)) := by
  have hindex : indexOf (BitVec.ofNat 8 a) = a := Nat.mod_eq_of_lt ha
  rw [takeMove_issue, exec, execSt, whileRunning_running (s := setOpd 0#64 s) hs, hindex, immediateOf]

/-- The ST commands of a string store write the bytes as one stretch; only the operand bus changes besides. -/
theorem takeMoves_storeString {a : Nat} {bytes : List Byte} {s : State} (hs : s.fault = 0#4)
    (ha : a + bytes.length ≤ 256) :
    ∃ opd, takeMoves (storeString a bytes) s = .next (memWrite a bytes (setOpd opd s)) := by
  induction bytes generalizing a s with
  | nil => exact ⟨s.opd, rfl⟩
  | cons x xs ih =>
    rw [List.length_cons] at ha
    obtain ⟨opd, hxs⟩ := ih (a := a + 1) (s := fbWrite a x (setOpd 0#64 s)) hs (by omega)
    refine ⟨opd, ?_⟩
    rw [storeString, takeMoves_cons (takeMove_issue_st x hs (by omega)), hxs]
    rfl

/-- Settles O53: the string store is one stretch of bytes written, which reads back as it was written. -/
theorem stringStoreWritesItsBytes : Obligations.StringStoreWritesItsBytes := by
  intro a bytes s hs ha
  obtain ⟨opd, h⟩ := takeMoves_storeString hs ha
  refine ⟨_, h, ?_, memRead_memWrite _ _ _, fun k hk => ?_⟩
  · rw [memWrite_frame]
    rfl
  · rw [fbRead_memWrite_outside _ hk, fbRead_setOpd]

end Sys2Proof.Machine

namespace Sys2Proof.Machine

/-! ## Host access: NOP, ST, LD, SETV (40_host_access.md)

### Words and effects -/

/-- A command has one word, and it is the one R77 writes with shifts. -/
theorem decode_eq_ok_iff_shiftedWord {w : CmdWord} {i : Instr} :
    decode w = .ok i ↔ w = shiftedWord (opcodeOf i) i.fields.a i.fields.b i.fields.c := by
  rw [Laws.shiftedWord_eq_joinWord]
  exact decode_eq_ok_iff

/-- NOP leaves a running block and a halted one as they are (R100). -/
theorem exec_nop (s : State) : exec .nop s = .next s := by
  by_cases hs : s.fault = 0#4
  · exact whileRunning_running hs
  · exact exec_halted .nop hs

/-- ST on a running block is one byte written (R101). -/
theorem exec_st_running (a b : Byte) {s : State} (hs : s.fault = 0#4) :
    exec (.st a b) s = .next (fbWrite a.toNat b s) :=
  whileRunning_running hs

/-- LD on a running block is one byte read into `D` (R102). -/
theorem exec_ld_running (a : Byte) {s : State} (hs : s.fault = 0#4) :
    exec (.ld a) s = .next (setD (fbRead s a.toNat) s) :=
  whileRunning_running hs

/-- SETV on a running block takes the operand bus into `V` (R103). -/
theorem exec_setv_running {s : State} (hs : s.fault = 0#4) : exec .setv s = .next (setV s.opd s) :=
  whileRunning_running hs

/-! ### The operand bus: every operation but SETV's effect commutes with a change of it (R103) -/

@[simp] theorem memRead_setOpd (x : Value) (s : State) (a n : Nat) : memRead (setOpd x s) a n = memRead s a n :=
  memRead_congr fun _ _ => rfl

@[simp] theorem rangeBytes_setOpd (x : Value) (s : State) (a n : Byte) :
    rangeBytes (setOpd x s) a n = rangeBytes s a n :=
  memRead_setOpd x s _ _

theorem memWrite_setOpd (a : Nat) (xs : List Byte) (x : Value) (s : State) :
    memWrite a xs (setOpd x s) = setOpd x (memWrite a xs s) := by
  induction xs generalizing a s with
  | nil => rfl
  | cons y ys ih => exact ih (a + 1) (fbWrite a y s)

theorem raiseFault_setOpd (f : Fault) (x : Value) (s : State) :
    raiseFault f (setOpd x s) = setOpd x (raiseFault f s) := by
  by_cases hs : s.fault = 0#4
  · rw [raiseFault_running hs, raiseFault_running (s := setOpd x s) hs]
    rfl
  · rw [raiseFault_halted hs, raiseFault_halted (s := setOpd x s) hs]

theorem storeEncoded_setOpd (a size : Byte) (bytes : List Byte) (x : Value) (s : State) :
    storeEncoded a size bytes (setOpd x s) = setOpd x (storeEncoded a size bytes s) := by
  rw [storeEncoded, memWrite_setOpd]
  rfl

theorem storeDecoded_setOpd (r : Nat × Bool) (x : Value) (s : State) :
    storeDecoded r (setOpd x s) = setOpd x (storeDecoded r s) := by
  unfold storeDecoded
  split <;> rfl

theorem mapRange_setOpd (f : Byte → Byte) (a n : Byte) (x : Value) (s : State) :
    mapRange f a n (setOpd x s) = setOpd x (mapRange f a n s) := by
  rw [mapRange, rangeBytes_setOpd, memWrite_setOpd, mapRange]

section
variable {x : Value} {s t : State}

/-- The halt does not look at the bus: a command without an extent does the same under another operand when its effect
does. -/
theorem whileRunning_setOpd {e : State → State} (h : whileRunning e s = .next t)
    (he : e (setOpd x s) = setOpd x (e s)) : whileRunning e (setOpd x s) = .next (setOpd x t) := by
  rcases whileRunning_next h with ⟨hs, rfl⟩ | ⟨hs, rfl⟩
  · rw [whileRunning_running (s := setOpd x s) hs, he]
  · exact whileRunning_halted hs

/-- Nor does the range rule. -/
theorem range_setOpd {e : State → State} {a len : Nat} (h : whileRunning (withinBuffer a len e) s = .next t)
    (he : e (setOpd x s) = setOpd x (e s)) :
    whileRunning (withinBuffer a len e) (setOpd x s) = .next (setOpd x t) := by
  refine whileRunning_setOpd h ?_
  by_cases hl : a + len ≤ Config.fbSize
  · rw [withinBuffer_inside hl, withinBuffer_inside hl, he]
  · rw [withinBuffer_outside (by omega), withinBuffer_outside (by omega), raiseFault_setOpd]

/-- A command other than SETV does the same whatever the operand bus carries. -/
theorem exec_setOpd {i : Instr} (hi : i ≠ .setv) (h : exec i s = .next t) :
    exec i (setOpd x s) = .next (setOpd x t) := by
  cases i with
  | nop => exact whileRunning_setOpd h rfl
  | st a b => exact whileRunning_setOpd h rfl
  | ld a => exact whileRunning_setOpd h rfl
  | setv => exact absurd rfl hi
  | chksum a n => exact range_setOpd h (by rw [rangeBytes_setOpd]; rfl)
  | chkadd a n => exact range_setOpd h (by rw [rangeBytes_setOpd]; rfl)
  | chkvfy a n => exact range_setOpd h (by rw [rangeBytes_setOpd]; rfl)
  | chkput a n => exact range_setOpd h (by rw [rangeBytes_setOpd]; rfl)
  | bcdenc a size => exact range_setOpd h (storeEncoded_setOpd _ _ _ _ _)
  | bcdencr a size => exact range_setOpd h (storeEncoded_setOpd _ _ _ _ _)
  | bcddec a len size => exact range_setOpd h (by rw [rangeBytes_setOpd, storeDecoded_setOpd])
  | bcddecr a len size => exact range_setOpd h (by rw [rangeBytes_setOpd, storeDecoded_setOpd])
  | obf a n => exact range_setOpd h (mapRange_setOpd _ _ _ _ _)
  | deobf a n => exact range_setOpd h (mapRange_setOpd _ _ _ _ _)
  | ctlx a => exact whileRunning_setOpd h rfl
  | ctlpk a f => exact whileRunning_setOpd h rfl

end

/-! ### The obligations -/

/-- Settles O8: the effect is one byte written, which reads back at its own index alone. -/
theorem stStoresItsByte : Obligations.StStoresItsByte := by
  intro a b s hs
  exact ⟨fun _ => decode_eq_ok_iff_shiftedWord, _, exec_st_running a b hs, rfl, fun k => fbRead_fbWrite s a.toNat k b⟩

/-- Settles O10: SETV takes the bus into V, and every other command commutes with a change of the bus. -/
theorem setvLoadsTheOperand : Obligations.SetvLoadsTheOperand :=
  ⟨fun _ => decode_eq_ok_iff, fun _ hs => exec_setv_running hs, fun _ _ _ _ hi h => exec_setOpd hi h⟩

/-- Settles O23: each command changes only the fields it may write, and only bytes in its column Writes of R51, which
is FB[a] for ST and empty for LD and SETV. -/
theorem hostAccessFrame : Obligations.HostAccessFrame := by
  refine ⟨fun s t h => exec_frame h, fun a b s t h => ⟨exec_frame h, fun k hk => ?_⟩,
    fun a s t h => ⟨exec_frame h, fun k => ?_⟩, fun s t h => ⟨exec_frame h, fun k => ?_⟩⟩
  · exact exec_fbRead_of_not_writesAt h hk
  · exact exec_fbRead_of_not_writesAt h not_false
  · exact exec_fbRead_of_not_writesAt h not_false

/-- Settles O7: the one word of NOP is all zero, and NOP leaves every block as it is. -/
theorem nopDoesNothing : Obligations.NopDoesNothing :=
  ⟨fun _ => decode_eq_ok_iff, exec_nop⟩

/-- Settles O9: the effect is one byte read into D. -/
theorem ldLoadsIntoD : Obligations.LdLoadsIntoD :=
  fun a _ hs => ⟨fun _ => decode_eq_ok_iff_shiftedWord, exec_ld_running a hs⟩

end Sys2Proof.Machine

namespace Sys2Proof.Machine

/-! ## The checksum unit: CHKSUM, CHKADD, CHKVFY, CHKPUT (41_checksum.md)

### The range rule of every command (R52, R182) -/

/-- A command whose extent leaves the buffer takes `F_RANGE` and does nothing else; the six commands without a range
never do. -/
theorem exec_outside {i : Instr} {s : State} (hs : s.fault = 0#4) (hl : 256 < extentEnd i) :
    exec i s = .next { s with fault := 2#4 } := by
  cases i with
  | nop | setv => exact absurd hl (by decide)
  | st a _ | ld a | ctlx a | ctlpk a _ => exact absurd hl (by have := a.isLt; simp only [extentEnd]; omega)
  | chksum | chkadd | chkvfy | chkput | bcdenc | bcdencr | bcddec | bcddecr | obf | deobf => exact range_outside hs hl

/-- A range command inside the buffer leaves FAULT as its effect does. -/
theorem range_fault_inside {a len : Nat} {e : State → State} {s t : State}
    (h : whileRunning (withinBuffer a len e) s = .next t) (hl : a + len ≤ 256) (he : (e s).fault = s.fault) :
    t.fault = s.fault := by
  rcases range_next h with ⟨-, -, rfl⟩ | ⟨-, hout, -⟩ | ⟨-, rfl⟩
  · exact he
  · omega
  · rfl

/-- No command touches FAULT while its extent stays in the buffer. -/
theorem exec_fault_inside {i : Instr} {s t : State} (h : exec i s = .next t) (hl : extentEnd i ≤ 256) :
    t.fault = s.fault := by
  cases i with
  | nop | st | ld | setv | ctlx | ctlpk => rw [exec_frame h]; rfl
  | chksum | chkadd | chkvfy | chkput => exact range_fault_inside h hl rfl
  | bcdenc | bcdencr => exact range_fault_inside h hl (by simp [storeEncoded])
  | bcddec | bcddecr => exact range_fault_inside h hl (by unfold storeDecoded; split <;> rfl)
  | obf | deobf => exact range_fault_inside h hl (by simp [mapRange])

/-! ### Words and effects -/

/-- The sum of a command's range, in the terms of the statements (R110). -/
theorem sum8_rangeBytes (s : State) (a n : Byte) :
    sum8 (rangeBytes s a n) = BitVec.ofNat 8 (rangeSum s a.toNat n.toNat) :=
  sum8_memRead s a.toNat n.toNat

/-- Equality of a stored byte with a sum modulo 256, as R113 tests it. -/
theorem checksumMatches_ofNat (m : Nat) (x : Byte) :
    checksumMatches (BitVec.ofNat 8 m) x = decide (x.toNat = m % 256) := by
  rw [checksumMatches, Bool.eq_iff_iff, beq_iff_eq, decide_eq_true_iff, ← BitVec.toNat_inj, BitVec.toNat_ofNat, eq_comm]

section
variable {a n : Byte} {s : State}

/-- CHKSUM inside the buffer (R111). -/
theorem exec_chksum_inside (hs : s.fault = 0#4) (hl : a.toNat + n.toNat ≤ 256) :
    exec (.chksum a n) s = .next (setCk (sum8 (rangeBytes s a n)) s) :=
  range_inside hs hl

/-- CHKADD inside the buffer (R112). -/
theorem exec_chkadd_inside (hs : s.fault = 0#4) (hl : a.toNat + n.toNat ≤ 256) :
    exec (.chkadd a n) s = .next (setCk (s.ck + sum8 (rangeBytes s a n)) s) :=
  range_inside hs hl

/-- CHKVFY with its range and the byte after it inside the buffer (R113). -/
theorem exec_chkvfy_inside (hs : s.fault = 0#4) (hl : a.toNat + n.toNat ≤ 255) :
    exec (.chkvfy a n) s = .next
      (setCkok (checksumMatches (sum8 (rangeBytes s a n)) (fbRead s (checksumIndex a n)))
        (setCk (sum8 (rangeBytes s a n)) s)) :=
  range_inside hs (Nat.succ_le_succ hl)

/-- CHKPUT with its range and the byte after it inside the buffer (R114). -/
theorem exec_chkput_inside (hs : s.fault = 0#4) (hl : a.toNat + n.toNat ≤ 255) :
    exec (.chkput a n) s = .next
      (fbWrite (checksumIndex a n) (sum8 (rangeBytes s a n)) (setCk (sum8 (rangeBytes s a n)) s)) :=
  range_inside hs (Nat.succ_le_succ hl)

end

/-- Settles O11: the effect is the sum of the range put into CK. -/
theorem chksumSumsTheRange : Obligations.ChksumSumsTheRange := by
  intro a n s hs
  refine ⟨fun _ => decode_eq_ok_iff_shiftedWord, fun hl => ?_, exec_outside (i := .chksum a n) hs⟩
  rw [exec_chksum_inside hs hl, sum8_rangeBytes]
  rfl

/-- Settles O12: adding bytes is adding numbers modulo 256. -/
theorem chkaddAddsTheRange : Obligations.ChkaddAddsTheRange := by
  intro a n s hs
  refine ⟨fun _ => decode_eq_ok_iff_shiftedWord, fun hl => ?_, exec_outside (i := .chkadd a n) hs⟩
  rw [exec_chkadd_inside hs hl, sum8_rangeBytes, BitVec.ofNat_add, BitVec.ofNat_toNat, BitVec.setWidth_eq]
  rfl

/-- Settles O13: the effect is the sum put into CK, and its comparison with the byte after the range into CKOK. -/
theorem chkvfyComparesTheStoredSum : Obligations.ChkvfyComparesTheStoredSum := by
  intro a n s hs
  refine ⟨fun _ => decode_eq_ok_iff_shiftedWord, fun hl => ?_,
    fun hl => exec_outside (i := .chkvfy a n) hs (Nat.succ_lt_succ hl)⟩
  rw [exec_chkvfy_inside hs hl, sum8_rangeBytes, checksumMatches_ofNat]
  rfl

/-- Settles O14: the effect is the sum put into CK and written at one index, which alone reads differently. -/
theorem chkputStoresTheSum : Obligations.ChkputStoresTheSum := by
  intro a n s hs
  refine ⟨fun _ => decode_eq_ok_iff_shiftedWord, fun hl => ?_,
    fun hl => exec_outside (i := .chkput a n) hs (Nat.succ_lt_succ hl)⟩
  rw [← sum8_rangeBytes]
  exact ⟨_, exec_chkput_inside hs hl, rfl, fun k => fbRead_fbWrite _ _ k _⟩

/-- Settles O24: each command changes only the fields it may write and only bytes in its column Writes of R51, which is
empty for all but CHKPUT; FAULT stays while the extent is inside the buffer. -/
theorem checksumFrame : Obligations.ChecksumFrame := by
  refine ⟨?_, fun a n s t h => ⟨exec_frame h, fun k => ?_, fun hl => ?_⟩,
    fun a n s t h => ⟨exec_frame h, fun k hk => ?_, fun hl => ?_⟩⟩
  · rintro a n s t (h | h) <;>
      exact ⟨exec_frame h, fun k => exec_fbRead_of_not_writesAt h not_false, exec_fault_inside h⟩
  · exact exec_fbRead_of_not_writesAt h not_false
  · exact exec_fault_inside h (Nat.succ_le_succ hl)
  · exact exec_fbRead_of_not_writesAt h hk
  · exact exec_fault_inside h (Nat.succ_le_succ hl)

/-! ### The laws of `sum8` (R115) -/

theorem sum8_cons (x : Byte) (xs : List Byte) : sum8 (x :: xs) = x + sum8 xs := by
  simp [sum8, BitVec.ofNat_add]

theorem sum8_perm {xs ys : List Byte} (h : xs.Perm ys) : sum8 xs = sum8 ys := by
  rw [sum8, sum8, (h.map BitVec.toNat).sum_eq]

theorem sum8_filter_ne_zero (xs : List Byte) : sum8 (xs.filter (· != 0#8)) = sum8 xs := by
  induction xs with
  | nil => rfl
  | cons x xs ih =>
    by_cases hx : x = 0#8 <;> simp [hx, ih, sum8_cons]

/-- Each obfuscated byte adds 0x33 to the sum. -/
theorem sum8_map_obf (xs : List Byte) : sum8 (xs.map obf) = sum8 xs + BitVec.ofNat 8 (0x33 * xs.length) := by
  induction xs with
  | nil => rfl
  | cons x xs ih =>
    rw [List.map_cons, sum8_cons, ih, sum8_cons, List.length_cons, Nat.mul_succ, BitVec.ofNat_add,
      obf, Config.obfK]
    ac_rfl

/-- Settles O45: the sum of bytes is a sum in the bytes' own addition, which is associative and commutative. -/
theorem checksumLaws : Obligations.ChecksumLaws := by
  refine fun xs ys => ⟨?_, sum8_perm, sum8_perm xs.reverse_perm, sum8_toNat xs, sum8_filter_ne_zero xs, ?_⟩
  · rw [sum8_append, BitVec.toNat_add]
  · rw [sum8_map_obf, BitVec.toNat_add, BitVec.toNat_ofNat, Nat.add_mod_mod]

/-! ### Commands in sequence (R112, R114) -/

@[simp] theorem rangeBytes_setCk (x : Byte) (s : State) (a n : Byte) : rangeBytes (setCk x s) a n = rangeBytes s a n :=
  memRead_congr fun _ _ => rfl

/-- A range in two parts, its second index and its length inside a byte. -/
theorem rangeBytes_append (s : State) {a k m : Byte} (hi : a.toNat + k.toNat ≤ 255) (hn : k.toNat + m.toNat ≤ 255) :
    rangeBytes s a (k + m) = rangeBytes s a k ++ rangeBytes s (a + k) m := by
  have hak : (a + k).toNat = a.toNat + k.toNat := BitVec.toNat_add_of_lt (Nat.lt_succ_of_le hi)
  have hkm : (k + m).toNat = k.toNat + m.toNat := BitVec.toNat_add_of_lt (Nat.lt_succ_of_le hn)
  simp only [rangeBytes, indexOf, countOf, hak, hkm, memRead_append]

/-- The byte after a range is not in it. -/
theorem rangeBytes_fbWrite_checksumIndex (a n x : Byte) (s : State) :
    rangeBytes (fbWrite (checksumIndex a n) x s) a n = rangeBytes s a n :=
  memRead_congr fun j hj => fbRead_fbWrite_of_ne x s (by rw [checksumIndex]; omega)

/-- CHKADD continues CHKSUM. -/
theorem chksum_chkadd {a k m : Byte} {s t u : State} (hs : s.fault = 0#4)
    (hl : a.toNat + k.toNat + m.toNat ≤ 256) (hn : k.toNat + m.toNat ≤ 255) (hi : a.toNat + k.toNat ≤ 255)
    (ht : exec (.chksum a k) s = .next t) (hu : exec (.chkadd (a + k) m) t = .next u) :
    exec (.chksum a (k + m)) s = .next u := by
  have hrun : t.fault = 0#4 := (exec_fault_inside ht (by simp only [extentEnd]; omega)).trans hs
  rw [exec_chkadd_inside hrun (by bv_omega)] at hu
  rw [exec_chksum_inside hs (by omega)] at ht
  obtain rfl := next_inj ht
  rw [exec_chksum_inside hs (by bv_omega), rangeBytes_append s hi hn, sum8_append, ← hu, rangeBytes_setCk]
  rfl

/-- CHKVFY after CHKPUT finds the sum it stored. -/
theorem chkput_chkvfy {a n : Byte} {s t : State} (hs : s.fault = 0#4) (hl : a.toNat + n.toNat ≤ 255)
    (ht : exec (.chkput a n) s = .next t) : exec (.chkvfy a n) t = .next { t with ckok := true } := by
  have hrun : t.fault = 0#4 := (exec_fault_inside ht (Nat.succ_le_succ hl)).trans hs
  rw [exec_chkvfy_inside hrun hl]
  rw [exec_chkput_inside hs hl] at ht
  obtain rfl := next_inj ht
  rw [rangeBytes_fbWrite_checksumIndex, rangeBytes_setCk, fbRead_fbWrite, if_pos rfl, checksumMatches,
    beq_self_eq_true]
  rfl

/-- Settles O46: the sum of two adjacent ranges is the sum of the whole, and the byte CHKPUT writes is not in the range
it sums. -/
theorem checksumCommandsCompose : Obligations.ChecksumCommandsCompose :=
  ⟨fun _ _ _ _ _ _ => chksum_chkadd, fun _ _ _ _ hs hl h => ⟨_, chkput_chkvfy hs hl h, rfl⟩⟩

/-! ### What a changed byte does to the sum (R116) -/

/-- If two states differ in one byte of a range at most, their sums of it are equal only where that byte is. -/
theorem sum8_memRead_eq_iff {s s' : State} {a n k : Nat} (hk : a ≤ k ∧ k < a + n)
    (hrest : ∀ j, j ≠ k → fbRead s' j = fbRead s j) :
    sum8 (memRead s' a n) = sum8 (memRead s a n) ↔ fbRead s' k = fbRead s k := by
  obtain ⟨i, rfl⟩ := Nat.exists_eq_add_of_le hk.1
  obtain ⟨m, rfl⟩ : ∃ m, n = i + (m + 1) := ⟨n - i - 1, by omega⟩
  have before : memRead s' a i = memRead s a i := memRead_congr fun j hj => hrest _ (by omega)
  have after : memRead s' (a + i + 1) m = memRead s (a + i + 1) m := memRead_congr fun j hj => hrest _ (by omega)
  rw [memRead_append s' a i, memRead_append s a i, memRead, memRead, before, after, sum8_append, sum8_append,
    sum8_cons, sum8_cons, BitVec.add_right_inj, BitVec.add_left_inj]

/-- CKOK after CHKVFY (R113). -/
theorem chkvfy_ckok_iff {a n : Byte} {s t : State} (hs : s.fault = 0#4) (hl : a.toNat + n.toNat ≤ 255)
    (h : exec (.chkvfy a n) s = .next t) :
    t.ckok = true ↔ sum8 (memRead s a.toNat n.toNat) = fbRead s (a.toNat + n.toNat) := by
  rw [exec_chkvfy_inside hs hl] at h
  obtain rfl := next_inj h
  exact beq_iff_eq

/-- Settles O47: a covered byte changes the sum and not the stored byte, the checksum byte the other way round, any
other byte neither. -/
theorem singleByteTamperDetection : Obligations.SingleByteTamperDetection := by
  intro a n s s' t t' hs hs' hl h hok h'
  rw [chkvfy_ckok_iff hs hl h] at hok
  have hok' := chkvfy_ckok_iff hs' hl h'
  refine ⟨fun k hrest hne => ⟨fun hk => ?_, fun hk => ?_⟩, fun hstored hsum => ?_⟩
  · rw [← Bool.not_eq_true, hok']
    rcases Nat.lt_or_eq_of_le hk.2 with hlt | rfl
    · rw [hrest _ hlt.ne', ← hok, sum8_memRead_eq_iff ⟨hk.1, hlt⟩ hrest]
      exact hne
    · rw [memRead_congr fun j hj => hrest _ (by omega), hok]
      exact hne.symm
  · rw [hok', hrest _ (by omega), memRead_congr fun j hj => hrest _ (by omega), hok]
  · rw [hok', hstored, ← hok, sum8_memRead, sum8_memRead]
    exact BitVec.eq_of_toNat_eq (by simpa using hsum)

end Sys2Proof.Machine

namespace Sys2Proof.Machine

/-! ## The BCD unit: BCDENC, BCDENCR, BCDDEC, BCDDECR (42_bcd.md)

### `encodeBCD` in closed form (R121) -/

theorem encodeBCD_getElem (v k j : Nat) (h : j < (encodeBCD v k).length) :
    (encodeBCD v k)[j] = bcdByte (v / 100 ^ (k - 1 - j) % 100) :=
  (List.getElem_eq_iff h).mpr (encodeBCD_getElem? v k j (encodeBCD_length v k ▸ h))

/-- In wire order the byte `j` has the weight `100 ^ j` (R125). -/
theorem encodeBCD_reverse_getElem (v k j : Nat) (h : j < (encodeBCD v k).reverse.length) :
    (encodeBCD v k).reverse[j] = bcdByte (v / 100 ^ j % 100) := by
  have hj : j < k := by simpa using h
  rw [List.getElem_reverse, encodeBCD_getElem, encodeBCD_length]
  congr 4
  omega

theorem isBcdByte_of_mem_encodeBCD {v k : Nat} {x : Byte} (hx : x ∈ encodeBCD v k) : isBcdByte x = true := by
  obtain ⟨j, hj, rfl⟩ := List.mem_iff_getElem.mp hx
  rw [encodeBCD_getElem]
  exact isBcdByte_bcdByte _ (Nat.mod_lt _ (by decide))

/-- A longer encoding writes the quotient in front. -/
theorem encodeBCD_add (v m k : Nat) : encodeBCD v (m + k) = encodeBCD (v / 100 ^ k) m ++ encodeBCD v k := by
  induction k generalizing v with
  | zero => simp [encodeBCD, encodeLoop]
  | succ k ih =>
    rw [← Nat.add_assoc, encodeBCD_succ, ih, encodeBCD_succ v k, List.append_assoc, Nat.div_div_eq_div_mul, pow_succ']

/-- The bytes tell the value modulo `100 ^ k` alone. -/
theorem encodeBCD_mod (v k : Nat) : encodeBCD (v % 100 ^ k) k = encodeBCD v k := by
  induction k generalizing v with
  | zero => rfl
  | succ k ih =>
    rw [encodeBCD_succ, encodeBCD_succ, pow_succ', Nat.mod_mul_right_div_self, ih, Nat.mod_mul_right_mod]

theorem encodeBCD_zero (k : Nat) : encodeBCD 0 k = List.replicate k 0#8 := by
  induction k with
  | zero => rfl
  | succ k ih => rw [encodeBCD_succ, Nat.zero_div, ih, List.replicate_succ']; rfl

/-! ### `encodeBCD` and the accumulation of R122 are inverse to each other (R128) -/

/-- One more byte in table order. -/
theorem decodeLoop_concat (val : Nat) (xs : List Byte) (x : Byte) :
    decodeLoop val (xs ++ [x]) = decodeLoop val xs * 100 + (10 * highNibble x + lowNibble x) := by
  rw [decodeLoop_append, decodeLoop, decodeLoop, Nat.add_assoc]

/-- The two digits of a BCD byte make a number below 100. -/
theorem digits_lt {x : Byte} (h : isBcdByte x = true) : 10 * highNibble x + lowNibble x < 100 := by
  simp only [isBcdByte, Bool.and_eq_true, decide_eq_true_eq] at h
  omega

theorem decodeLoop_encodeBCD (v k : Nat) : decodeLoop 0 (encodeBCD v k) = v % 100 ^ k := by
  induction k generalizing v with
  | zero => rw [pow_zero, Nat.mod_one]; rfl
  | succ k ih =>
    have hlt : v % 100 < 100 := Nat.mod_lt _ (by decide)
    rw [encodeBCD_succ, decodeLoop_concat, ih, highNibble_bcdByte _ hlt, lowNibble_bcdByte _ hlt, Nat.div_add_mod,
      pow_succ', Nat.mod_mul, Nat.mul_comm, Nat.add_comm]

theorem encodeBCD_decodeLoop {xs : List Byte} (h : xs.all isBcdByte = true) :
    encodeBCD (decodeLoop 0 xs) xs.length = xs := by
  induction xs using List.reverseRecOn with
  | nil => rfl
  | append_singleton xs x ih =>
    obtain ⟨hxs, hx⟩ : xs.all isBcdByte = true ∧ isBcdByte x = true := by simpa using h
    have hlt := digits_lt hx
    rw [List.length_append, List.length_singleton, encodeBCD_succ, decodeLoop_concat, Nat.mul_add_mod_of_lt hlt,
      bcdByte_of_nibbles x hx, Nat.mul_comm, Nat.mul_add_div (by decide), Nat.div_eq_of_lt hlt, Nat.add_zero, ih hxs]

/-- `k` valid bytes stand for a number of at most `2 * k` digits. -/
theorem decodeLoop_lt {xs : List Byte} (h : xs.all isBcdByte = true) : decodeLoop 0 xs < 100 ^ xs.length := by
  rw [← encodeBCD_decodeLoop h, decodeLoop_encodeBCD, encodeBCD_length]
  exact Nat.mod_lt _ (by positivity)

/-! ### `decodeBCD` and its window (R122, R123) -/

theorem decodeBCD_valid {xs w : List Byte} {k : Nat} (hw : decodeWindow xs k = w) (h : w.all isBcdByte = true) :
    decodeBCD xs k = (decodeLoop 0 w, true) := by
  rw [decodeBCD, hw, if_pos h]

theorem decodeBCD_invalid {xs w : List Byte} {k : Nat} (hw : decodeWindow xs k = w) (h : ¬ w.all isBcdByte = true) :
    decodeBCD xs k = (0, false) := by
  rw [decodeBCD, hw, if_neg h]

/-- A window as long as the string is the whole string. -/
theorem decodeWindow_length (xs : List Byte) : decodeWindow xs xs.length = xs := by
  rw [decodeWindow, Nat.min_self, Nat.sub_self, List.drop_zero]

theorem all_isBcdByte_reverse_iff (s : State) (a m : Nat) :
    (memRead s a m).reverse.all isBcdByte = true ↔ AllBcd s a (a + m) := by
  rw [List.all_reverse, all_isBcdByte_iff]

/-- An encoding is valid and decodes to the value's lowest `k` digit pairs. -/
theorem decodeBCD_encodeBCD (v k : Nat) : decodeBCD (encodeBCD v k) k = (v % 100 ^ k, true) := by
  have hw : decodeWindow (encodeBCD v k) k = encodeBCD v k := by
    simpa using decodeWindow_length (encodeBCD v k)
  rw [decodeBCD_valid hw (List.all_eq_true.mpr fun _ => isBcdByte_of_mem_encodeBCD), decodeLoop_encodeBCD]

/-! ### What the two effects leave -/

theorem storeDecoded_valid (n : Nat) (s : State) :
    storeDecoded (n, true) s =
      { s with v := BitVec.ofNat 64 n, bcdinv := false, bcdovf := decide (2 ^ 64 ≤ n) } := rfl

theorem storeDecoded_invalid (s : State) :
    storeDecoded (0, false) s = { s with v := 0#64, bcdinv := true, bcdovf := false } := rfl

theorem storeEncoded_bcdovf (a size : Byte) (bytes : List Byte) (s : State) :
    (storeEncoded a size bytes s).bcdovf = decide (100 ^ size.toNat ≤ s.v.toNat) := rfl

/-- An encode changes BCDOVF and the frame buffer (R124). -/
theorem storeEncoded_eq (a size : Byte) (bytes : List Byte) (s : State) :
    storeEncoded a size bytes s = { s with
      bcdovf := decide (100 ^ size.toNat ≤ s.v.toNat)
      fb := (storeEncoded a size bytes s).fb } := by
  rw [storeEncoded, memWrite_frame]
  rfl

@[simp] theorem rangeBytes_setBcdovf (x : Bool) (s : State) (a n : Byte) :
    rangeBytes (setBcdovf x s) a n = rangeBytes s a n :=
  memRead_congr fun _ _ => rfl

section
variable {a size : Byte} {bytes : List Byte} {s : State}

theorem fbRead_storeEncoded_inside {j : Nat} (h : j < bytes.length) :
    fbRead (storeEncoded a size bytes s) (a.toNat + j) = bytes[j] :=
  fbRead_memWrite_inside s h

/-- The range of an encode holds the bytes it wrote. -/
theorem rangeBytes_storeEncoded (hlen : bytes.length = size.toNat) :
    rangeBytes (storeEncoded a size bytes s) a size = bytes := by
  rw [storeEncoded, rangeBytes_setBcdovf, rangeBytes, countOf, ← hlen, memRead_memWrite]

/-- Writing back the bytes that the range held leaves the buffer as it was. -/
theorem sameMemory_storeEncoded_rangeBytes {t : State} (hmem : SameMemory s t) :
    SameMemory s (storeEncoded a size (rangeBytes s a size) t) := by
  intro k
  have hlen : (rangeBytes s a size).length = size.toNat := memRead_length ..
  by_cases hk : a.toNat ≤ k ∧ k < a.toNat + size.toNat
  · obtain ⟨j, rfl⟩ := Nat.exists_eq_add_of_le hk.1
    rw [fbRead_storeEncoded_inside (by omega)]
    exact memRead_getElem ..
  · exact (fbRead_storeEncoded_outside t hlen hk).trans (hmem k)

end

/-- What an encode leaves, by the digit pair that stands at each place of its bytes (R124, R125). -/
theorem storeEncoded_spec {a size : Byte} {bytes : List Byte} {s : State} {pair : Nat → Nat}
    (hlen : bytes.length = size.toNat) (hbytes : ∀ j (h : j < bytes.length), bytes[j] = bcdByte (pair j % 100)) :
    (∀ j, j < size.toNat → ∃ p, p = pair j % 100 ∧
      (fbRead (storeEncoded a size bytes s) (a.toNat + j)).toNat = 16 * (p / 10) + p % 10) ∧
    SameMemoryOutside a.toNat (a.toNat + size.toNat) s (storeEncoded a size bytes s) := by
  refine ⟨fun j hj => ⟨_, rfl, ?_⟩, fun k hk => fbRead_storeEncoded_outside s hlen (by omega)⟩
  rw [fbRead_storeEncoded_inside (hlen ▸ hj), hbytes, bcdByte_toNat _ (Nat.mod_lt _ (by decide))]

/-! ### The four commands on a running block -/

section
variable {a len size : Byte} {s : State}

/-- BCDENC inside the buffer (R124). -/
theorem exec_bcdenc_inside (hs : s.fault = 0#4) (hl : a.toNat + size.toNat ≤ 256) :
    exec (.bcdenc a size) s = .next (storeEncoded a size (encodeBCD s.v.toNat size.toNat) s) :=
  range_inside hs hl

/-- BCDENCR inside the buffer (R125). -/
theorem exec_bcdencr_inside (hs : s.fault = 0#4) (hl : a.toNat + size.toNat ≤ 256) :
    exec (.bcdencr a size) s = .next (storeEncoded a size (encodeBCD s.v.toNat size.toNat).reverse s) :=
  range_inside hs hl

/-- BCDDEC inside the buffer (R126). -/
theorem exec_bcddec_inside (hs : s.fault = 0#4) (hl : a.toNat + len.toNat ≤ 256) :
    exec (.bcddec a len size) s = .next (storeDecoded (decodeBCD (rangeBytes s a len) size.toNat) s) :=
  range_inside hs hl

/-- BCDDECR inside the buffer (R127). -/
theorem exec_bcddecr_inside (hs : s.fault = 0#4) (hl : a.toNat + len.toNat ≤ 256) :
    exec (.bcddecr a len size) s = .next (storeDecoded (decodeBCD (rangeBytes s a len).reverse size.toNat) s) :=
  range_inside hs hl

end

/-! ### The obligations of one command and of `encodeBCD` -/

/-- Settles O48: the bytes by index; the value modulo `100 ^ k` has the same lowest `k` digit pairs, and the pairs above
those of `v < 100 ^ k` are the encoding of 0. -/
theorem encodeBcdClosedForm : Obligations.EncodeBcdClosedForm := by
  refine fun v k => ⟨encodeBCD_length v k, encodeBCD_getElem? v k, fun _ => isBcdByte_of_mem_encodeBCD,
    (encodeBCD_mod v k).symm, fun k' hk hv => ?_⟩
  obtain ⟨m, rfl⟩ := Nat.exists_eq_add_of_le' hk
  rw [encodeBCD_add, Nat.div_eq_of_lt hv, encodeBCD_zero, Nat.add_sub_cancel]

/-- Settles O15: the bytes written are those of the closed form. -/
theorem bcdencWritesTableOrder : Obligations.BcdencWritesTableOrder := by
  intro a size s hs
  exact ⟨fun _ => decode_eq_ok_iff_shiftedWord,
    fun hl => ⟨_, exec_bcdenc_inside hs hl, storeEncoded_eq .., storeEncoded_spec (by simp) (encodeBCD_getElem _ _)⟩,
    exec_outside (i := .bcdenc a size) hs⟩

/-- Settles O16: the bytes written are those of the closed form, counted from the other end. -/
theorem bcdencrWritesWireOrder : Obligations.BcdencrWritesWireOrder := by
  intro a size s hs
  exact ⟨fun _ => decode_eq_ok_iff_shiftedWord,
    fun hl => ⟨_, exec_bcdencr_inside hs hl, storeEncoded_eq ..,
      storeEncoded_spec (by simp) (encodeBCD_reverse_getElem _ _)⟩,
    exec_outside (i := .bcdencr a size) hs⟩

/-- Settles O17: the window is a range of the buffer, valid where its bytes are BCD bytes, its value theirs. -/
theorem bcddecReadsTableOrder : Obligations.BcddecReadsTableOrder := by
  intro a len size s hs
  refine ⟨fun _ => decode_eq_ok_iff_shiftedWord, fun hl m lo hm hlo => ?_, exec_outside (i := .bcddec a len size) hs⟩
  have hw : decodeWindow (rangeBytes s a len) size.toNat = memRead s lo m := by
    subst hm hlo
    exact decodeWindow_memRead s a.toNat len.toNat size.toNat
  rw [exec_bcddec_inside hs hl, ← all_isBcdByte_iff, ← decodeLoop_memRead]
  exact ⟨fun h => by rw [decodeBCD_valid hw h, storeDecoded_valid],
    fun h => by rw [decodeBCD_invalid hw h, storeDecoded_invalid]⟩

/-- Settles O18: of the reversed string the window is the start of the range, reversed. -/
theorem bcddecrReadsWireOrder : Obligations.BcddecrReadsWireOrder := by
  intro a len size s hs
  refine ⟨fun _ => decode_eq_ok_iff_shiftedWord, fun hl m hm => ?_, exec_outside (i := .bcddecr a len size) hs⟩
  have hw : decodeWindow (rangeBytes s a len).reverse size.toNat = (memRead s a.toNat m).reverse := by
    subst hm
    exact decodeWindow_reverse s a.toNat len.toNat size.toNat
  rw [exec_bcddecr_inside hs hl, ← all_isBcdByte_reverse_iff, ← decodeLoop_reverse]
  exact ⟨fun h => by rw [decodeBCD_valid hw h, storeDecoded_valid],
    fun h => by rw [decodeBCD_invalid hw h, storeDecoded_invalid]⟩

theorem not_inside_of_outside {lo hi k : Nat} (h : k < lo ∨ hi ≤ k) : ¬ (lo ≤ k ∧ k < hi) := by
  omega

/-- Settles O25: an encode changes only the fields it may write and only bytes in its column Writes of R51, its range;
FAULT stays while the extent is inside the buffer. -/
theorem bcdEncodeFrame : Obligations.BcdEncodeFrame := by
  rintro a size s t (h | h) <;>
    exact ⟨exec_frame h, fun k hk => exec_fbRead_of_not_writesAt h (not_inside_of_outside hk), exec_fault_inside h⟩

/-- Settles O26: as for the encodes, the column Writes of a decode being empty. -/
theorem bcdDecodeFrame : Obligations.BcdDecodeFrame := by
  rintro a len size s t (h | h) <;>
    exact ⟨exec_frame h, fun k => exec_fbRead_of_not_writesAt h not_false, exec_fault_inside h⟩

/-! ### Encode and decode in sequence (R128) -/

/-- A decode of what an encode wrote: nothing invalid, and no more than V holds. -/
theorem storeDecoded_encodeBCD (v : Value) (k : Nat) (t : State) :
    (storeDecoded (decodeBCD (encodeBCD v.toNat k) k) t).v.toNat = v.toNat % 100 ^ k ∧
    (storeDecoded (decodeBCD (encodeBCD v.toNat k) k) t).bcdinv = false ∧
    (storeDecoded (decodeBCD (encodeBCD v.toNat k) k) t).bcdovf = false := by
  have hlt : v.toNat % 100 ^ k < 2 ^ 64 := (Nat.mod_le _ _).trans_lt v.isLt
  rw [decodeBCD_encodeBCD, storeDecoded_valid]
  exact ⟨by rw [BitVec.toNat_ofNat, Nat.mod_eq_of_lt hlt], rfl, decide_eq_false hlt.not_ge⟩

/-- Settles O49: the decode reads the bytes that the encode wrote, which stand for V modulo `100 ^ size`. -/
theorem bcdEncodeThenDecode : Obligations.BcdEncodeThenDecode := by
  refine fun a size s t hs hl => ⟨fun h => ?_, fun h => ?_⟩
  · have hrun : t.fault = 0#4 := (exec_fault_inside h hl).trans hs
    rw [exec_bcdenc_inside hs hl] at h
    obtain rfl := next_inj h
    refine ⟨storeEncoded_bcdovf .., _, exec_bcddec_inside hrun hl, ?_⟩
    rw [rangeBytes_storeEncoded (by simp)]
    exact storeDecoded_encodeBCD s.v size.toNat _
  · have hrun : t.fault = 0#4 := (exec_fault_inside h hl).trans hs
    rw [exec_bcdencr_inside hs hl] at h
    obtain rfl := next_inj h
    refine ⟨storeEncoded_bcdovf .., _, exec_bcddecr_inside hrun hl, ?_⟩
    rw [rangeBytes_storeEncoded (by simp), List.reverse_reverse]
    exact storeDecoded_encodeBCD s.v size.toNat _

/-- Valid bytes whose value V can hold: from the value in V the encode makes the same bytes, and loses no digit. -/
theorem encodeBCD_storeDecoded {xs : List Byte} {k : Nat} (hlen : xs.length = k) (hall : xs.all isBcdByte = true)
    (hlt : decodeLoop 0 xs < 2 ^ 64) (s : State) :
    encodeBCD (storeDecoded (decodeBCD xs k) s).v.toNat k = xs ∧
    decide (100 ^ k ≤ (storeDecoded (decodeBCD xs k) s).v.toNat) = false := by
  subst hlen
  have hv : (storeDecoded (decodeBCD xs xs.length) s).v.toNat = decodeLoop 0 xs := by
    rw [decodeBCD_valid (decodeWindow_length xs) hall, storeDecoded_valid, BitVec.toNat_ofNat, Nat.mod_eq_of_lt hlt]
  rw [hv]
  exact ⟨encodeBCD_decodeLoop hall, decide_eq_false (decodeLoop_lt hall).not_ge⟩

/-- Settles O50: the decode changes no byte, and the encode writes back the bytes that the decode read. -/
theorem bcdDecodeThenEncode : Obligations.BcdDecodeThenEncode := by
  refine fun a k s t u hs hl hbcd => ⟨fun hlt h h' => ?_, fun hlt h h' => ?_⟩
  · have hrun : t.fault = 0#4 := (exec_fault_inside h hl).trans hs
    have hmem : SameMemory s t := fun _ => exec_fbRead_of_not_writesAt h not_false
    obtain ⟨hbytes, hovf⟩ := encodeBCD_storeDecoded (xs := rangeBytes s a k) (k := k.toNat)
      (memRead_length ..) ((all_isBcdByte_iff ..).mpr hbcd) (decodeLoop_memRead s .. ▸ hlt) s
    rw [exec_bcddec_inside hs hl] at h
    obtain rfl := next_inj h
    rw [exec_bcdenc_inside hrun hl] at h'
    obtain rfl := next_inj h'
    refine ⟨?_, (storeEncoded_bcdovf ..).trans hovf⟩
    rw [hbytes]
    exact sameMemory_storeEncoded_rangeBytes hmem
  · have hrun : t.fault = 0#4 := (exec_fault_inside h hl).trans hs
    have hmem : SameMemory s t := fun _ => exec_fbRead_of_not_writesAt h not_false
    obtain ⟨hbytes, hovf⟩ := encodeBCD_storeDecoded (xs := (rangeBytes s a k).reverse) (k := k.toNat)
      (List.length_reverse.trans (memRead_length ..)) ((all_isBcdByte_reverse_iff ..).mpr hbcd)
      (decodeLoop_reverse s .. ▸ hlt) s
    rw [exec_bcddecr_inside hs hl] at h
    obtain rfl := next_inj h
    rw [exec_bcdencr_inside hrun hl] at h'
    obtain rfl := next_inj h'
    refine ⟨?_, (storeEncoded_bcdovf ..).trans hovf⟩
    rw [hbytes, List.reverse_reverse]
    exact sameMemory_storeEncoded_rangeBytes hmem

end Sys2Proof.Machine

namespace Sys2Proof.Machine

/-! ## The obfuscation engine: OBF, DEOBF (43_obfuscation.md)

### The two byte functions as numbers (R140) -/

theorem obf_toNat (x : Byte) : (obf x).toNat = (x.toNat + 0x33) % 256 :=
  BitVec.toNat_add x Config.obfK

/-- Subtracting 0x33 is adding its negative modulo 256. -/
theorem deobf_toNat (x : Byte) : (deobf x).toNat = (x.toNat + 0xCD) % 256 := by
  rw [deobf, BitVec.sub_eq_add_neg]
  exact BitVec.toNat_add x (-Config.obfK)

/-! ### A mapped range -/

/-- A mapped range changes the frame buffer alone (R141, R142). -/
theorem mapRange_eq (f : Byte → Byte) (a n : Byte) (s : State) :
    mapRange f a n s = { s with fb := (mapRange f a n s).fb } :=
  memWrite_frame ..

/-- The bytes of a mapped range as numbers, for a byte function that adds `c` modulo 256. -/
theorem fbRead_mapRange_toNat {f : Byte → Byte} {c : Nat} (hf : ∀ x, (f x).toNat = (x.toNat + c) % 256)
    (a n : Byte) (s : State) (k : Nat) :
    (fbRead (mapRange f a n s) k).toNat =
      if a.toNat ≤ k ∧ k < a.toNat + n.toNat then ((fbRead s k).toNat + c) % 256 else (fbRead s k).toNat := by
  rw [fbRead_mapRange, apply_ite BitVec.toNat, hf]

/-- Mapping a range and then mapping it back leaves every byte as it was (R143). -/
theorem sameMemory_mapRange_mapRange {f g : Byte → Byte} (hgf : ∀ x, g (f x) = x) (a n : Byte) (s : State) :
    SameMemory s (mapRange g a n (mapRange f a n s)) := by
  intro k
  rw [fbRead_mapRange, fbRead_mapRange]
  split
  · exact hgf _
  · rfl

/-! ### The two commands on a running block -/

section
variable {a n : Byte} {s : State}

/-- OBF inside the buffer (R141). -/
theorem exec_obf_inside (hs : s.fault = 0#4) (hl : a.toNat + n.toNat ≤ 256) :
    exec (.obf a n) s = .next (mapRange obf a n s) :=
  range_inside hs hl

/-- DEOBF inside the buffer (R142). -/
theorem exec_deobf_inside (hs : s.fault = 0#4) (hl : a.toNat + n.toNat ≤ 256) :
    exec (.deobf a n) s = .next (mapRange deobf a n s) :=
  range_inside hs hl

end

/-! ### The obligations -/

/-- Settles O19: the effect maps the range by `obf`, which adds 0x33 modulo 256. -/
theorem obfAddsToTheRange : Obligations.ObfAddsToTheRange := by
  intro a n s hs
  exact ⟨fun _ => decode_eq_ok_iff_shiftedWord,
    fun hl => ⟨_, exec_obf_inside hs hl, mapRange_eq .., fbRead_mapRange_toNat obf_toNat a n s⟩,
    exec_outside (i := .obf a n) hs⟩

/-- Settles O20: the effect maps the range by `deobf`, which adds 0xCD modulo 256. -/
theorem deobfSubtractsFromTheRange : Obligations.DeobfSubtractsFromTheRange := by
  intro a n s hs
  exact ⟨fun _ => decode_eq_ok_iff_shiftedWord,
    fun hl => ⟨_, exec_deobf_inside hs hl, mapRange_eq .., fbRead_mapRange_toNat deobf_toNat a n s⟩,
    exec_outside (i := .deobf a n) hs⟩

/-- Settles O27: each command changes only the fields it may write and only bytes in its column Writes of R51, its
range; FAULT stays while the extent is inside the buffer. -/
theorem obfuscationFrame : Obligations.ObfuscationFrame := by
  rintro a n s t (h | h) <;>
    exact ⟨exec_frame h, fun k hk => exec_fbRead_of_not_writesAt h (not_inside_of_outside hk), exec_fault_inside h⟩

/-- A range command that maps bytes, followed by one that maps the same range back: the block still runs after the
first, and every byte is as it was (R143). -/
theorem sameMemory_of_inverse_ranges {f g : Byte → Byte} (hgf : ∀ x, g (f x) = x) {a n : Byte} {s t u : State}
    (hs : s.fault = 0#4) (hl : a.toNat + n.toNat ≤ 256)
    (h : whileRunning (withinBuffer (indexOf a) (plainExtent n) (mapRange f a n)) s = .next t)
    (h' : whileRunning (withinBuffer (indexOf a) (plainExtent n) (mapRange g a n)) t = .next u) : SameMemory s u := by
  obtain rfl : mapRange f a n s = t := next_inj ((range_inside hs hl).symm.trans h)
  have hrun : (mapRange f a n s).fault = 0#4 := by rwa [mapRange_eq]
  obtain rfl : mapRange g a n (mapRange f a n s) = u := next_inj ((range_inside hrun hl).symm.trans h')
  exact sameMemory_mapRange_mapRange hgf a n s

/-- Settles O51: the byte functions of the two commands are inverse to each other, both ways. -/
theorem obfuscationInverses : Obligations.ObfuscationInverses :=
  fun _ _ _ _ _ hs hl => ⟨sameMemory_of_inverse_ranges deobf_obf hs hl, sameMemory_of_inverse_ranges obf_deobf hs hl⟩

end Sys2Proof.Machine

namespace Sys2Proof.Machine

/-! ## The control-byte unit: CTLX, CTLPK (44_control_byte.md)

### The fields of a control byte, by mask and by value (R150) -/

/-- A bit of a byte by the mask of that bit alone. -/
theorem getLsbD_eq_and_twoPow_ne_zero (x : Byte) {k : Nat} (hk : k < 8) :
    x.getLsbD k = (x &&& BitVec.twoPow 8 k != 0#8) := by
  have hmask : ∀ k < 8, BitVec.twoPow 8 k ≠ 0#8 := by decide
  rw [BitVec.and_twoPow]
  cases x.getLsbD k <;> simp [hmask k hk]

theorem controlDir_eq_mask (x : Byte) : controlDir x = (x &&& 0x80#8 != 0#8) :=
  getLsbD_eq_and_twoPow_ne_zero x (by decide : 7 < 8)

theorem controlErr_eq_mask (x : Byte) : controlErr x = (x &&& 0x40#8 != 0#8) :=
  getLsbD_eq_and_twoPow_ne_zero x (by decide : 6 < 8)

theorem controlFup_eq_mask (x : Byte) : controlFup x = (x &&& 0x20#8 != 0#8) :=
  getLsbD_eq_and_twoPow_ne_zero x (by decide : 5 < 8)

theorem controlFc_eq_mod (x : Byte) : controlFc x = BitVec.ofNat 5 (x.toNat % 32) := by
  apply BitVec.eq_of_toNat_eq
  simp [controlFc]

/-! ### The master's control byte (R152) -/

theorem functionCodeOf_toNat (f : Byte) : (functionCodeOf f).toNat = f.toNat % 32 :=
  (BitVec.toNat_and f Config.fcMask).trans (Nat.and_two_pow_sub_one_eq_mod f.toNat 5)

/-- The mask of the function code has no bit above bit 4. -/
theorem functionCodeOf_getLsbD (f : Byte) {k : Nat} (hk : Config.fcMask.getLsbD k = false) :
    (functionCodeOf f).getLsbD k = false := by
  rw [functionCodeOf, BitVec.getLsbD_and, hk, Bool.and_false]

theorem controlDir_functionCodeOf (f : Byte) : controlDir (functionCodeOf f) = false :=
  functionCodeOf_getLsbD f rfl

theorem controlErr_functionCodeOf (f : Byte) : controlErr (functionCodeOf f) = false :=
  functionCodeOf_getLsbD f rfl

theorem controlFup_functionCodeOf (f : Byte) : controlFup (functionCodeOf f) = false :=
  functionCodeOf_getLsbD f rfl

theorem controlFc_functionCodeOf (f : Byte) : controlFc (functionCodeOf f) = BitVec.ofNat 5 (f.toNat % 32) := by
  rw [controlFc_eq_mod, functionCodeOf_toNat, Nat.mod_mod]

/-! ### The two commands on a running block -/

/-- CTLX on a running block splits the byte at its index into the four fields (R151). -/
theorem exec_ctlx_running (a : Byte) {s : State} (hs : s.fault = 0#4) {x : Byte} (hx : fbRead s a.toNat = x) :
    exec (.ctlx a) s = .next (setControl (controlDir x) (controlErr x) (controlFup x) (controlFc x) s) :=
  hx ▸ whileRunning_running hs

/-- CTLPK on a running block is one byte written, the masked function code (R152). -/
theorem exec_ctlpk_running (a f : Byte) {s : State} (hs : s.fault = 0#4) :
    exec (.ctlpk a f) s = .next (fbWrite a.toNat (functionCodeOf f) s) :=
  whileRunning_running hs

/-- CTLX of a byte just written splits the value that was written. -/
theorem exec_ctlx_fbWrite (a x : Byte) {s : State} (hs : s.fault = 0#4) :
    exec (.ctlx a) (fbWrite a.toNat x s) = .next
      (setControl (controlDir x) (controlErr x) (controlFup x) (controlFc x) (fbWrite a.toNat x s)) :=
  exec_ctlx_running a (s := fbWrite a.toNat x s) hs (by rw [fbRead_fbWrite, if_pos rfl])

/-! ### The obligations -/

/-- Settles O22: the effect is one byte written, the function code modulo 32. -/
theorem ctlpkWritesTheMasterByte : Obligations.CtlpkWritesTheMasterByte := by
  intro a f s hs
  refine ⟨fun _ => decode_eq_ok_iff_shiftedWord, _, exec_ctlpk_running a f hs, rfl, fun k => ?_⟩
  rw [fbRead_fbWrite, apply_ite BitVec.toNat, functionCodeOf_toNat]

/-- Settles O28: each command changes only the fields it may write, and only bytes in its column Writes of R51, which
is empty for CTLX and FB[a] for CTLPK. -/
theorem controlByteFrame : Obligations.ControlByteFrame :=
  ⟨fun _ _ _ h => ⟨exec_frame h, fun _ => exec_fbRead_of_not_writesAt h not_false⟩,
    fun _ _ _ _ h => ⟨exec_frame h, fun _ hk => exec_fbRead_of_not_writesAt h hk⟩⟩

/-- Settles O52: CTLX splits the byte that the command before it wrote; the masked function code has no flag set, and
the four fields of any byte are the whole byte. -/
theorem controlByteLaws : Obligations.ControlByteLaws := by
  refine ⟨fun a f s t hs h => ?_, fun a x s t hs h => ?_⟩
  · obtain rfl := next_inj ((exec_ctlpk_running a f hs).symm.trans h)
    exact ⟨_, exec_ctlx_fbWrite a _ hs, controlDir_functionCodeOf f, controlErr_functionCodeOf f,
      controlFup_functionCodeOf f, controlFc_functionCodeOf f⟩
  · obtain rfl := next_inj ((exec_st_running a x hs).symm.trans h)
    exact ⟨_, exec_ctlx_fbWrite a x hs, ctlf_setControl x _⟩

/-- Settles O21: the fields that the effect stores are the bits under the masks and the byte modulo 32. -/
theorem ctlxSplitsTheByte : Obligations.CtlxSplitsTheByte := by
  intro a s hs
  refine ⟨fun _ => decode_eq_ok_iff_shiftedWord, ?_⟩
  rw [exec_ctlx_running a hs rfl, controlDir_eq_mask, controlErr_eq_mask, controlFup_eq_mask, controlFc_eq_mod]
  rfl

end Sys2Proof.Machine

namespace Sys2Proof.Machine

/-! ## The frame functions (45_frame_sequences.md, R160 to R170)

### Byte sequences -/

theorem byteAt_of_getElem? {xs : List Byte} {k : Nat} {x : Byte} (h : xs[k]? = some x) : byteAt xs k = x := by
  rw [byteAt, List.getD_eq_getElem?_getD, h, Option.getD_some]

/-- Two slices of the same offsets are equal when the bytes at those offsets are. -/
theorem slice_eq_iff {xs ys : List Byte} {lo hi : Nat} :
    slice xs lo hi = slice ys lo hi ↔ ∀ k, lo ≤ k → k < hi → xs[k]? = ys[k]? := by
  rw [List.ext_getElem?_iff]
  simp only [slice, List.getElem?_drop, List.getElem?_take]
  refine ⟨fun h k hlo hhi => ?_, fun h i => ?_⟩
  · simpa [Nat.add_sub_cancel' hlo, hhi] using h (k - lo)
  · split
    · exact h _ (Nat.le_add_right ..) ‹_›
    · rfl

/-- One byte of a sequence changed changes its sum (R116). -/
theorem sum8_set_ne {xs : List Byte} {k : Nat} {x : Byte} (hk : k < xs.length) (hx : xs[k]? ≠ some x) :
    sum8 (xs.set k x) ≠ sum8 xs := by
  have hne : xs[k] ≠ x := fun h => hx (h ▸ List.getElem?_eq_getElem hk)
  have hxs : sum8 xs = sum8 (xs.take k) + (xs[k] + sum8 (xs.drop (k + 1))) := by
    rw [← sum8_cons, ← sum8_append, List.cons_getElem_drop_succ, List.take_append_drop]
  rw [List.set_eq_take_append_cons_drop, if_pos hk, sum8_append, sum8_cons, hxs, ne_eq, BitVec.add_right_inj,
    BitVec.add_left_inj]
  exact hne.symm

/-! ### FrameEncode (R161) -/

/-- Offsets 0 to 9 + N of a frame, which its checksum covers. -/
def frameCovered (addr : BitVec 48) (p : FramePayload) : List Byte :=
  frameHead addr p.functionCode p.data.length ++ p.data.map obf

/-- The whole frame: the covered bytes, their checksum and the end delimiter. -/
def encodedFrame (addr : BitVec 48) (p : FramePayload) : List Byte :=
  frameCovered addr p ++ [sum8 (frameCovered addr p), Config.eof]

theorem frameEncode_error {addr : BitVec 48} {p : FramePayload} (h : 200 < p.data.length) :
    frameEncode addr p = .error .validation := if_pos h

theorem frameEncode_ok {addr : BitVec 48} {p : FramePayload} (h : p.data.length ≤ 200) :
    frameEncode addr p = .ok (encodedFrame addr p) :=
  if_neg h.not_gt

theorem frameEncode_eq_ok_iff {addr : BitVec 48} {p : FramePayload} {raw : List Byte} :
    frameEncode addr p = .ok raw ↔ p.data.length ≤ 200 ∧ raw = encodedFrame addr p := by
  rcases Nat.lt_or_ge 200 p.data.length with h | h
  · simp [frameEncode_error h, h]
  · simp [frameEncode_ok h, h, eq_comm]

/-- The address field pair by pair, the least significant first (R84). -/
theorem addressField_eq (addr : BitVec 48) :
    addressField addr = (List.range 6).map fun k => bcdByte (addr.toNat / 100 ^ k % 100) := by
  apply List.ext_getElem
  · simp [addressField]
  · intro k _ _
    rw [List.getElem_map, List.getElem_range]
    exact encodeBCD_reverse_getElem ..

@[simp] theorem addressField_length (addr : BitVec 48) : (addressField addr).length = 6 := by
  simp [addressField_eq]

@[simp] theorem frameHead_length (addr : BitVec 48) (f : Byte) (n : Nat) : (frameHead addr f n).length = 10 := by
  simp [frameHead]

@[simp] theorem frameCovered_length (addr : BitVec 48) (p : FramePayload) :
    (frameCovered addr p).length = 10 + p.data.length := by
  simp [frameCovered]

@[simp] theorem encodedFrame_length (addr : BitVec 48) (p : FramePayload) :
    (encodedFrame addr p).length = 12 + p.data.length := by
  rw [encodedFrame, List.length_append, frameCovered_length, Nat.add_right_comm]
  rfl

/-- The ten bytes before the data (R85). -/
theorem frameHead_eq (addr : BitVec 48) (f : Byte) (n : Nat) :
    frameHead addr f n = Config.sof :: ((List.range 6).map fun k => bcdByte (addr.toNat / 100 ^ k % 100)) ++
      [Config.sof, functionCodeOf f, BitVec.ofNat 8 n] := by
  rw [frameHead, addressField_eq, List.singleton_append]

theorem frameCovered_getElem?_head (addr : BitVec 48) (p : FramePayload) {k : Nat} (hk : k < 10) :
    (frameCovered addr p)[k]? = (frameHead addr p.functionCode p.data.length)[k]? :=
  List.getElem?_append_left (by simpa using hk)

theorem encodedFrame_getElem?_head (addr : BitVec 48) (p : FramePayload) {k : Nat} (hk : k < 10) :
    (encodedFrame addr p)[k]? = (frameHead addr p.functionCode p.data.length)[k]? := by
  rw [encodedFrame, List.getElem?_append_left (by rw [frameCovered_length]; omega), frameCovered_getElem?_head _ _ hk]

theorem encodedFrame_getElem?_checksum (addr : BitVec 48) (p : FramePayload) :
    (encodedFrame addr p)[10 + p.data.length]? = some (sum8 (frameCovered addr p)) := by
  rw [encodedFrame, List.getElem?_append_right (by simp), frameCovered_length, Nat.sub_self]
  rfl

theorem drop_frameCovered (addr : BitVec 48) (p : FramePayload) : (frameCovered addr p).drop 10 = p.data.map obf :=
  List.drop_left' (frameHead_length ..)

theorem slice_encodedFrame_address (addr : BitVec 48) (p : FramePayload) :
    slice (encodedFrame addr p) 1 7 = addressField addr := by
  simp [slice, encodedFrame, frameCovered, frameHead]

/-- Settles O54: the offsets below 10 are those of the head, those of the data follow, and the two bytes after the
covered ones are the checksum and the end delimiter. -/
theorem frameHasTheWireLayout : Obligations.FrameHasTheWireLayout := by
  refine fun addr p => ⟨frameEncode_error, fun h => ⟨_, frameEncode_ok h, encodedFrame_length .., ?_⟩⟩
  refine ⟨encodedFrame_getElem?_head _ _ (by decide), ?_, fun k hk => ?_, ?_, ?_, fun k hk => ?_, ?_, ?_⟩
  · rw [encodedFrame_getElem?_head _ _ (by decide), frameHead_eq]; rfl
  · rw [encodedFrame_getElem?_head _ _ (by omega), frameHead_eq, Nat.add_comm, List.cons_append,
      List.getElem?_cons_succ, List.getElem?_append_left (by simpa using hk)]
    simp [hk]
  · rw [encodedFrame_getElem?_head _ _ (by decide), frameHead_eq]; rfl
  · rw [encodedFrame_getElem?_head _ _ (by decide), frameHead_eq]; rfl
  · rw [encodedFrame, List.getElem?_append_left (by simpa using hk), ← List.getElem?_drop, drop_frameCovered,
      List.getElem?_map]
    rfl
  · rw [encodedFrame_getElem?_checksum, encodedFrame, List.take_left' (frameCovered_length ..)]
    rfl
  · rw [encodedFrame, List.getElem?_append_right (by simp), frameCovered_length, Nat.add_sub_add_right]
    rfl

/-! ### FrameDecode (R163) -/

/-- Steps 4 to 7 of R163 on a control byte and the plain data. -/
def payloadOf (c : Byte) (data : List Byte) : Except FrameError FramePayload :=
  match c &&& Config.errMask != 0#8, data with
  | true, x :: _ => .error (.protocolException (functionCodeOf c) x)
  | _, _ => .ok ⟨c &&& Config.fupMask != 0#8, functionCodeOf c, data⟩

theorem decodedPayload_eq (raw : List Byte) :
    decodedPayload raw = payloadOf (byteAt raw 8) ((slice raw 10 (raw.length - 2)).map deobf) := rfl

theorem payloadOf_of_error {c : Byte} (h : controlErr c = true) (x : Byte) (xs : List Byte) :
    payloadOf c (x :: xs) = .error (.protocolException (functionCodeOf c) x) := by
  unfold payloadOf
  rw [← controlErr_eq_mask, h]

theorem payloadOf_of_ok {c : Byte} {data : List Byte} (h : data = [] ∨ controlErr c = false) :
    payloadOf c data = .ok ⟨controlFup c, functionCodeOf c, data⟩ := by
  unfold payloadOf
  rw [← controlErr_eq_mask, ← controlFup_eq_mask]
  rcases h with rfl | h
  · cases controlErr c <;> rfl
  · rw [h]

theorem frameDecode_of_length {raw : List Byte} (h : raw.length < 12 ∨ 212 < raw.length) :
    frameDecode raw = .error .framing := by
  simp [frameDecode, h]

/-- FrameDecode of a sequence with a legal length, taken apart into the bytes that the checksum covers, the stored
checksum and the last byte: nothing looks at the last byte (R165). -/
theorem frameDecode_append {ys : List Byte} (stored last : Byte) (h10 : 10 ≤ ys.length) (h210 : ys.length ≤ 210) :
    frameDecode (ys ++ [stored, last]) =
      if sum8 ys ≠ stored then .error .checksum
      else if (byteAt ys 9).toNat ≠ ys.length - 10 then .error .framing
      else payloadOf (byteAt ys 8) ((ys.drop 10).map deobf) := by
  have hlen : (ys ++ [stored, last]).length = ys.length + 2 := by simp
  have hlegal : ¬ ((ys ++ [stored, last]).length < 12 || 212 < (ys ++ [stored, last]).length) = true := by
    simp only [hlen, Bool.or_eq_true, decide_eq_true_eq]; omega
  have hbyte : ∀ k, k < ys.length → byteAt (ys ++ [stored, last]) k = byteAt ys k := fun k hk =>
    List.getD_append _ _ _ _ hk
  have hstored : byteAt (ys ++ [stored, last]) ys.length = stored := by simp [byteAt]
  have hslice : ∀ lo, slice (ys ++ [stored, last]) lo ys.length = ys.drop lo := by simp [slice]
  rw [frameDecode, if_neg hlegal, decodedPayload_eq, hlen, Nat.add_sub_cancel, hslice, hslice, hstored,
    hbyte 8 (by omega), hbyte 9 (by omega), Nat.add_sub_add_right]
  simp

theorem exists_eq_append_pair {raw : List Byte} (h : 2 ≤ raw.length) :
    ∃ ys stored last, raw = ys ++ [stored, last] := by
  obtain ⟨stored, last, hdrop⟩ := List.length_eq_two.mp (show (raw.drop (raw.length - 2)).length = 2 by simp; omega)
  exact ⟨_, stored, last, (hdrop ▸ List.take_append_drop ..).symm⟩

/-- Settles O55: the sequence is taken apart into the covered bytes and the last two, and each clause is one branch of
FrameDecode on them. -/
theorem frameDecodeSteps : Obligations.FrameDecodeSteps := by
  refine fun raw => ⟨frameDecode_of_length, fun h12 h212 stored len c data hstored hlen hc hdata => ?_⟩
  obtain ⟨ys, stored', last, rfl⟩ := exists_eq_append_pair (raw := raw) (by omega)
  simp only [List.length_append, List.length_cons, List.length_nil, Nat.add_sub_cancel, List.take_left] at *
  obtain rfl : stored' = stored := by simpa using hstored
  rw [List.getElem?_append_left (by omega)] at hlen hc
  have hsum : (ys.map BitVec.toNat).sum % 256 = stored'.toNat ↔ sum8 ys = stored' := by
    rw [← sum8_toNat, BitVec.toNat_inj]
  rw [frameDecode_append _ _ (by omega) (by omega), byteAt_of_getElem? hlen, byteAt_of_getElem? hc,
    show (ys.drop 10).map deobf = data from hdata.symm, ne_eq, hsum]
  refine ⟨fun h => if_pos h, fun h => ?_⟩
  rw [if_neg (not_not.mpr h), Nat.add_sub_add_right _ 2 10]
  refine ⟨fun hne => if_pos hne, fun heq => ?_⟩
  rw [if_neg (not_not.mpr heq)]
  refine ⟨fun x xs hxs herr => ?_, fun hok => ?_⟩
  · rw [hxs, payloadOf_of_error (by simpa [controlErr_eq_mask] using herr)]
    rfl
  · rw [payloadOf_of_ok (by simpa [controlErr_eq_mask] using hok), controlFup_eq_mask]
    rfl

/-! ### Decoding an encoded frame, whole (R169) and with one byte changed (R170) -/

theorem frameDecode_frameCovered {addr : BitVec 48} {p : FramePayload} (h : p.data.length ≤ 200) (last : Byte) :
    frameDecode (frameCovered addr p ++ [sum8 (frameCovered addr p), last]) =
      .ok ⟨false, functionCodeOf p.functionCode, p.data⟩ := by
  have hcontrol : byteAt (frameCovered addr p) 8 = functionCodeOf p.functionCode :=
    byteAt_of_getElem? (by rw [frameCovered_getElem?_head _ _ (by decide), frameHead_eq]; rfl)
  have hcount : byteAt (frameCovered addr p) 9 = BitVec.ofNat 8 p.data.length :=
    byteAt_of_getElem? (by rw [frameCovered_getElem?_head _ _ (by decide), frameHead_eq]; rfl)
  have hdata : ((frameCovered addr p).drop 10).map deobf = p.data := by
    rw [drop_frameCovered, List.map_map, show deobf ∘ obf = id from funext deobf_obf, List.map_id]
  have hmasked : functionCodeOf (functionCodeOf p.functionCode) = functionCodeOf p.functionCode := by
    rw [functionCodeOf, functionCodeOf, BitVec.and_assoc, BitVec.and_self]
  rw [frameDecode_append _ _ (by simp) (by rw [frameCovered_length]; omega), if_neg (not_not.mpr rfl), hcount,
    if_neg (by rw [BitVec.toNat_ofNat, frameCovered_length]; omega), hdata, hcontrol,
    payloadOf_of_ok (.inr (controlErr_functionCodeOf _)), controlFup_functionCodeOf, hmasked]

/-- Settles O56: the frame passes every check of FrameDecode, and a code below 32 is its own low five bits. -/
theorem frameRoundTrip : Obligations.FrameRoundTrip := by
  intro addr p hdata hcode
  have hfc : functionCodeOf p.functionCode = p.functionCode :=
    BitVec.eq_of_toNat_eq (by rw [functionCodeOf_toNat, Nat.mod_eq_of_lt hcode])
  exact ⟨_, frameEncode_ok hdata, by rw [encodedFrame, frameDecode_frameCovered hdata, hfc]⟩

/-- Settles O57: a changed covered byte changes the sum and not the stored byte, a changed checksum byte the stored byte
and not the sum, and nothing looks at the last byte. -/
theorem frameTamperDetection : Obligations.FrameTamperDetection := by
  intro addr p raw k x hraw hk hx
  obtain ⟨hdata, rfl⟩ := frameEncode_eq_ok_iff.mp hraw
  rw [encodedFrame] at hx ⊢
  have hlen := frameCovered_length addr p
  refine ⟨fun hle => ?_, fun hlast => ?_⟩
  · rcases Nat.lt_or_eq_of_le hle with hlt | rfl
    · have hcov : k < (frameCovered addr p).length := hlen ▸ hlt
      rw [List.getElem?_append_left hcov] at hx
      rw [List.set_append_left _ _ hcov, frameDecode_append _ _ (by simp) (by rw [List.length_set]; omega),
        if_pos (sum8_set_ne hcov hx)]
    · rw [← hlen] at hx ⊢
      rw [List.set_append_right _ _ le_rfl, Nat.sub_self, List.set_cons_zero,
        frameDecode_append _ _ (by simp) (by omega), if_pos (by simpa using hx)]
  · rw [hlast, List.set_append_right _ _ (by omega), hlen, Nat.add_sub_add_right]
    exact (frameDecode_frameCovered hdata x).trans (frameDecode_frameCovered hdata Config.eof).symm

/-! ### FrameVerify (R167) -/

/-- FrameVerify of a request that holds an address: the length of the response, then its address bytes. -/
theorem frameVerify_eq {req : List Byte} (resp : List Byte) (h : 7 ≤ req.length) :
    frameVerify req resp = some (if resp.length < 10 then .error .framing
      else if slice resp 1 7 != slice req 1 7 then .error .addressMismatch else .ok ()) := by
  rw [frameVerify, if_neg h.not_gt]
  split_ifs <;> rfl

end Sys2Proof.Machine

namespace Sys2Proof.Machine

/-! ## The host's sequences on the block (45_frame_sequences.md, R162 to R168)

### Moves and looks -/

/-- The moves lead the block from one state to another, the operand bus apart, which every transaction sets (log 4). -/
def RunsTo (ms : List HostMove) (s t : State) : Prop :=
  ∀ x, ∃ y, takeMoves ms (setOpd x s) = .next (setOpd y t)

theorem RunsTo.append {ms ms' : List HostMove} {s t u : State} (h : RunsTo ms s t) (h' : RunsTo ms' t u) :
    RunsTo (ms ++ ms') s u := by
  intro x
  obtain ⟨y, hy⟩ := h x
  rw [takeMoves_append hy]
  exact h' y

theorem RunsTo.cons {m : HostMove} {ms : List HostMove} {s t u : State} (h : RunsTo [m] s t) (h' : RunsTo ms t u) :
    RunsTo (m :: ms) s u := h.append h'

/-- One command's transaction. -/
theorem runsTo_issue {i : Instr} {s t : State} (h : exec i s = .next t) (hi : i ≠ .setv := by nofun) :
    RunsTo [issue i] s t := by
  intro x
  refine ⟨0#64, takeMoves_cons (ms := []) ?_⟩
  rw [takeMove_issue]
  exact exec_setOpd (s := s) hi h

/-- The transaction of SETV with its operand (R103). -/
theorem runsTo_issueSetv (value : Value) {s : State} (hs : s.fault = 0#4) :
    RunsTo [issueSetv value] s (setV value s) := by
  intro x
  refine ⟨value, takeMoves_cons (ms := []) ?_⟩
  exact (runWord_of_decode (decode_encode .setv) _).trans (exec_setv_running (s := setOpd value s) hs)

theorem runsTo_storeString {a : Nat} {bytes : List Byte} {s : State} (hs : s.fault = 0#4)
    (ha : a + bytes.length ≤ 256) : RunsTo (storeString a bytes) s (memWrite a bytes s) := by
  intro x
  obtain ⟨y, hy⟩ := takeMoves_storeString (s := setOpd x s) hs ha
  exact ⟨y, hy.trans (by rw [← memWrite_setOpd]; rfl)⟩

/-- SETV and BCDENCR write the address field of a frame (R162, R168). -/
theorem runsTo_address (addr : BitVec 48) {a : Byte} {s : State} (hs : s.fault = 0#4) (ha : a.toNat + 6 ≤ 256) :
    RunsTo [issueSetv (addr.setWidth 64), issue (.bcdencr a 6#8)] s
      (storeEncoded a 6#8 (addressField addr) (setV (addr.setWidth 64) s)) := by
  have hv : (addr.setWidth 64).toNat = addr.toNat := BitVec.toNat_setWidth_of_le (by decide)
  have h := exec_bcdencr_inside (a := a) (size := 6#8) (s := setV (addr.setWidth 64) s) hs ha
  rw [setV_v, hv] at h
  exact (runsTo_issueSetv _ hs).cons (runsTo_issue h)

/-- The host goes on in the state that its moves lead to. -/
theorem afterMoves_of_runsTo {ms : List HostMove} {s t : State} (h : RunsTo ms s t) (α : Type) :
    ∃ y, ∀ next : State → HostResult α, afterMoves ms s next = next (setOpd y t) := by
  obtain ⟨y, hy⟩ := h s.opd
  refine ⟨y, fun next => ?_⟩
  rw [afterMoves, show takeMoves ms s = _ from hy]

@[simp] theorem memRead_setD (x : Byte) (s : State) (a n : Nat) : memRead (setD x s) a n = memRead s a n :=
  memRead_congr fun _ _ => rfl

/-- Reading bytes gives the range as it stands, and changes `D` and the operand bus alone (R102). -/
theorem readBytes_eq {a n : Nat} {s : State} (hs : s.fault = 0#4) (ha : a + n ≤ 256) (α : Type) :
    ∃ d y, ∀ next : State → List Byte → HostResult α,
      readBytes a n s next = next (setD d (setOpd y s)) (memRead s a n) := by
  induction n generalizing a s with
  | zero => exact ⟨s.d, s.opd, fun _ => rfl⟩
  | succ n ih =>
    have hindex : (BitVec.ofNat 8 a).toNat = a := Nat.mod_eq_of_lt (by omega)
    obtain ⟨y, hld⟩ := afterMoves_of_runsTo (runsTo_issue (exec_ld_running (BitVec.ofNat 8 a) hs)) α
    obtain ⟨d, y', hrest⟩ := ih (a := a + 1) (s := setOpd y (setD (fbRead s a) s)) hs (by omega)
    refine ⟨d, y', fun next => ?_⟩
    rw [readBytes, hld, hindex, hrest, memRead_setOpd, memRead_setD]
    rfl

theorem slice_memRead (s : State) (a : Nat) {n lo hi : Nat} (h : hi ≤ n) :
    slice (memRead s a n) lo hi = memRead s (a + lo) (hi - lo) := by
  apply List.ext_getElem
  · simp [slice, h]
  · intro j _ _
    simp [slice, Nat.add_assoc]

end Sys2Proof.Machine

namespace Sys2Proof.Machine

/-! ### The Encode sequence (R162) -/

/-- The block `t` holds the bytes at base 0, and every other byte as `s` has it. -/
def HoldsAtBase (s : State) (bytes : List Byte) (t : State) : Prop := SameMemory (memWrite 0 bytes s) t

theorem memWrite_append (a : Nat) (xs ys : List Byte) (s : State) :
    memWrite a (xs ++ ys) s = memWrite (a + xs.length) ys (memWrite a xs s) := by
  induction xs generalizing a s with
  | nil => rfl
  | cons x xs ih =>
    rw [List.cons_append, memWrite, ih, List.length_cons, memWrite, Nat.add_assoc, Nat.add_comm 1]

section
variable {s t : State} {xs ys : List Byte}

theorem HoldsAtBase.memRead_eq (h : HoldsAtBase s xs t) : memRead t 0 xs.length = xs := by
  rw [memRead_congr fun j _ => h _, memRead_memWrite]

theorem HoldsAtBase.outside (h : HoldsAtBase s xs t) : SameMemoryOutside 0 xs.length s t := fun k hk => by
  rw [h k, fbRead_memWrite_outside _ (by omega)]

/-- Bytes written behind those held. -/
theorem HoldsAtBase.memWrite (h : HoldsAtBase s xs t) {a : Nat} (ha : xs.length = a) :
    HoldsAtBase s (xs ++ ys) (memWrite a ys t) := by
  intro k
  rw [memWrite_append, Nat.zero_add, ha, fbRead_memWrite, fbRead_memWrite]
  split
  · rfl
  · exact h k

theorem HoldsAtBase.storeEncoded (h : HoldsAtBase s xs t) {a : Byte} (size : Byte) (ha : xs.length = a.toNat) :
    HoldsAtBase s (xs ++ ys) (storeEncoded a size ys t) := fun k =>
  (fbRead_setBcdovf ..).trans (h.memWrite ha k)

/-- The last of the bytes held mapped in place. -/
theorem HoldsAtBase.mapRange (h : HoldsAtBase s (xs ++ ys) t) (f : Byte → Byte) {a n : Byte} (ha : xs.length = a.toNat)
    (hn : ys.length = n.toNat) : HoldsAtBase s (xs ++ ys.map f) (mapRange f a n t) := by
  intro k
  simp only [fbRead_mapRange, h k, memWrite_append, fbRead_memWrite, List.length_map, Nat.zero_add, ha, hn]
  split
  · simp
  · rfl

end

/-- The block after the commands of the Encode sequence up to ST 9, N. -/
def withHead (addr : BitVec 48) (f : Byte) (n : Nat) (s : State) : State :=
  fbWrite 9 (BitVec.ofNat 8 n) (fbWrite 8 (functionCodeOf f) (fbWrite 7 Config.sof
    (storeEncoded 1#8 6#8 (addressField addr) (setV (addr.setWidth 64) (fbWrite 0 Config.sof s)))))

/-- The block after the data bytes are stored and obfuscated. -/
def withBody (data : List Byte) (s : State) : State :=
  mapRange obf 10#8 (BitVec.ofNat 8 data.length) (memWrite 10 data s)

/-- The block after the checksum of the bytes below `m` and the end delimiter are stored. -/
def withTail (m : Nat) (s : State) : State :=
  fbWrite (m + 1) Config.eof (fbWrite m (sum8 (memRead s 0 m)) (setCk (sum8 (memRead s 0 m)) s))

theorem holdsAtBase_withHead (addr : BitVec 48) (f : Byte) (n : Nat) (s : State) :
    HoldsAtBase s (frameHead addr f n) (withHead addr f n s) := by
  have h0 : HoldsAtBase s [Config.sof] (setV (addr.setWidth 64) (fbWrite 0 Config.sof s)) := fun _ => rfl
  have h1 := h0.storeEncoded (a := 1#8) 6#8 (ys := addressField addr) rfl
  exact h1.memWrite (ys := [Config.sof, functionCodeOf f, BitVec.ofNat 8 n]) (a := 7) (by simp)

theorem holdsAtBase_withBody {s t : State} {head data : List Byte} (h : HoldsAtBase s head t) (hhead : head.length = 10)
    (hdata : data.length ≤ 200) : HoldsAtBase s (head ++ data.map obf) (withBody data t) :=
  (h.memWrite hhead).mapRange obf hhead (Nat.mod_eq_of_lt (by omega)).symm

theorem holdsAtBase_withTail {s t : State} {xs : List Byte} {m : Nat} (h : HoldsAtBase s xs t) (hm : xs.length = m) :
    HoldsAtBase s (xs ++ [sum8 xs, Config.eof]) (withTail m t) := by
  have hread : memRead t 0 m = xs := hm ▸ h.memRead_eq
  rw [withTail, hread]
  exact HoldsAtBase.memWrite (t := setCk (sum8 xs) t) h hm

theorem withHead_fields (addr : BitVec 48) (f : Byte) (n : Nat) (s : State) :
    (withHead addr f n s).v = addr.setWidth 64 ∧
    (withHead addr f n s).bcdovf = decide (10 ^ 12 ≤ addr.toNat) ∧ (withHead addr f n s).fault = s.fault := by
  have hv : (addr.setWidth 64).toNat = addr.toNat := BitVec.toNat_setWidth_of_le (by decide)
  simp [withHead, storeEncoded, encodeOverflows, countOf, hv]

@[simp] theorem withBody_v (data : List Byte) (s : State) : (withBody data s).v = s.v := by
  simp [withBody, mapRange]
@[simp] theorem withBody_bcdovf (data : List Byte) (s : State) : (withBody data s).bcdovf = s.bcdovf := by
  simp [withBody, mapRange]
@[simp] theorem withBody_fault (data : List Byte) (s : State) : (withBody data s).fault = s.fault := by
  simp [withBody, mapRange]

theorem runsTo_head (addr : BitVec 48) (f : Byte) (n : Nat) {s : State} (hs : s.fault = 0#4) :
    RunsTo [issue (.st 0#8 Config.sof), issueSetv (addr.setWidth 64), issue (.bcdencr 1#8 6#8),
      issue (.st 7#8 Config.sof), issue (.ctlpk 8#8 f), issue (.st 9#8 (BitVec.ofNat 8 n))] s
      (withHead addr f n s) := by
  have haddress := runsTo_address addr (a := 1#8) (s := fbWrite 0 Config.sof s) hs (by decide)
  generalize hstored : storeEncoded 1#8 6#8 (addressField addr) _ = t at haddress
  have ht : t.fault = 0#4 := by simpa [← hstored, storeEncoded] using hs
  rw [withHead, hstored]
  exact (runsTo_issue (exec_st_running 0#8 _ hs)).cons <| haddress.append <|
    (runsTo_issue (exec_st_running 7#8 Config.sof ht)).cons <|
    (runsTo_issue (exec_ctlpk_running 8#8 f (s := fbWrite 7 Config.sof t) ht)).cons <|
    runsTo_issue (exec_st_running 9#8 _ (s := fbWrite 8 (functionCodeOf f) (fbWrite 7 Config.sof t)) ht)

theorem runsTo_body {data : List Byte} {s : State} (hs : s.fault = 0#4) (hdata : data.length ≤ 200) :
    RunsTo (storeString 10 data ++ [issue (.obf 10#8 (BitVec.ofNat 8 data.length))]) s (withBody data s) := by
  have hcount : (BitVec.ofNat 8 data.length).toNat = data.length := Nat.mod_eq_of_lt (by omega)
  exact (runsTo_storeString hs (by omega)).append <| runsTo_issue <|
    exec_obf_inside (by simpa using hs) (by rw [hcount]; exact Nat.add_le_add_left (show _ ≤ 246 by omega) 10)

theorem runsTo_tail {m : Nat} {s : State} (hs : s.fault = 0#4) (hm : m ≤ 254) :
    RunsTo [issue (.chkput 0#8 (BitVec.ofNat 8 m)), issue (.st (BitVec.ofNat 8 (m + 1)) Config.eof)] s
      (withTail m s) := by
  have hcount : (BitVec.ofNat 8 m).toNat = m := Nat.mod_eq_of_lt (by omega)
  have hindex : (BitVec.ofNat 8 (m + 1)).toNat = m + 1 := Nat.mod_eq_of_lt (by omega)
  have hput := exec_chkput_inside (a := 0#8) (n := BitVec.ofNat 8 m) hs (by simpa [hcount] using by omega)
  have hst := exec_st_running (BitVec.ofNat 8 (m + 1)) Config.eof
    (s := fbWrite m (sum8 (memRead s 0 m)) (setCk (sum8 (memRead s 0 m)) s)) hs
  simp only [rangeBytes, checksumIndex, indexOf, countOf, hcount, BitVec.toNat_zero, Nat.zero_add] at hput
  rw [hindex] at hst
  exact (runsTo_issue hput).cons (runsTo_issue hst)

theorem storeString_length (a : Nat) (bytes : List Byte) : (storeString a bytes).length = bytes.length := by
  induction bytes generalizing a with
  | nil => rfl
  | cons x xs ih => rw [storeString, List.length_cons, ih, List.length_cons]

theorem encodeSequence_length (addr : BitVec 48) (f : Byte) (data : List Byte) :
    (encodeSequence addr f data).length = 9 + data.length := by
  simp only [encodeSequence, List.length_append, storeString_length, List.length_cons, List.length_nil]
  omega

/-- The block after the Encode sequence, the operand bus apart. -/
def withFrame (addr : BitVec 48) (p : FramePayload) (s : State) : State :=
  withTail (10 + p.data.length) (withBody p.data (withHead addr p.functionCode p.data.length s))

theorem runsTo_encodeSequence (addr : BitVec 48) {p : FramePayload} {s : State} (hs : s.fault = 0#4)
    (hdata : p.data.length ≤ 200) :
    RunsTo (encodeSequence addr p.functionCode p.data) s (withFrame addr p s) := by
  obtain ⟨-, -, hfault⟩ := withHead_fields addr p.functionCode p.data.length s
  have hhead : (withHead addr p.functionCode p.data.length s).fault = 0#4 := hfault.trans hs
  have h := ((runsTo_head addr p.functionCode p.data.length hs).append (runsTo_body hhead hdata)).append
    (runsTo_tail (m := 10 + p.data.length) ((withBody_fault ..).trans hhead) (by omega))
  rw [show 10 + p.data.length + 1 = 11 + p.data.length by omega] at h
  simpa only [withFrame, encodeSequence, List.append_assoc, List.cons_append, List.nil_append] using h

theorem holdsAtBase_covered (addr : BitVec 48) {p : FramePayload} (s : State) (hdata : p.data.length ≤ 200) :
    HoldsAtBase s (frameCovered addr p) (withBody p.data (withHead addr p.functionCode p.data.length s)) :=
  holdsAtBase_withBody (holdsAtBase_withHead addr _ _ s) (frameHead_length ..) hdata

theorem holdsAtBase_withFrame (addr : BitVec 48) {p : FramePayload} (s : State) (hdata : p.data.length ≤ 200) :
    HoldsAtBase s (encodedFrame addr p) (withFrame addr p s) :=
  holdsAtBase_withTail (holdsAtBase_covered addr s hdata) (frameCovered_length ..)

theorem withFrame_ck (addr : BitVec 48) {p : FramePayload} (s : State) (hdata : p.data.length ≤ 200) :
    (withFrame addr p s).ck = sum8 (frameCovered addr p) :=
  congrArg sum8 (frameCovered_length addr p ▸ (holdsAtBase_covered addr s hdata).memRead_eq)

theorem withFrame_fields (addr : BitVec 48) (p : FramePayload) (s : State) :
    (withFrame addr p s).v = addr.setWidth 64 ∧
    (withFrame addr p s).bcdovf = decide (10 ^ 12 ≤ addr.toNat) ∧ (withFrame addr p s).fault = s.fault := by
  obtain ⟨hv, hovf, hfault⟩ := withHead_fields addr p.functionCode p.data.length s
  exact ⟨(withBody_v ..).trans hv, (withBody_bcdovf ..).trans hovf, (withBody_fault ..).trans hfault⟩

/-- Settles O58: the parts of the sequence write the head, the obfuscated data and the last two bytes of the frame, one
behind the other. -/
theorem encodeSequenceBuildsTheFrame : Obligations.EncodeSequenceBuildsTheFrame := by
  refine fun addr p s hs =>
    ⟨encodeSequence_length .., fun hdata => ?_, fun hdata => ⟨if_pos hdata, frameEncode_error hdata⟩⟩
  obtain ⟨y, hrun⟩ := afterMoves_of_runsTo (runsTo_encodeSequence addr hs hdata) (Except FrameError Unit)
  obtain ⟨hv, hovf, hfault⟩ := withFrame_fields addr p s
  have hframe := holdsAtBase_withFrame addr s hdata
  refine ⟨setOpd y (withFrame addr p s), _, ?_, frameEncode_ok hdata, ?_, ?_, (setOpd_v ..).trans hv,
    (setOpd_bcdovf ..).trans hovf, (setOpd_fault ..).trans (hfault.trans hs), ?_⟩
  · rw [hostEncode, if_neg hdata.not_gt, hrun]
  · rw [← encodedFrame_length addr p, memRead_setOpd, hframe.memRead_eq]
  · rw [setOpd_ck, withFrame_ck addr s hdata, encodedFrame_getElem?_checksum]
  · rw [← encodedFrame_length addr p]
    exact fun k hk => (fbRead_setOpd ..).trans (hframe.outside k hk)

end Sys2Proof.Machine

namespace Sys2Proof.Machine

/-! ### Verify (R167, R168) -/

/-- Comparing the address changes `D` and the operand bus alone. -/
theorem compareAddress_eq (expected : List Byte) {s : State} (hs : s.fault = 0#4) :
    ∃ d y, compareAddress expected s = .next (setD d (setOpd y s),
      if memRead s 1 6 != expected then .error .addressMismatch else .ok ()) := by
  obtain ⟨d, y, h⟩ := readBytes_eq (a := 1) (n := 6) hs (by decide) (Except FrameError Unit)
  exact ⟨d, y, h _⟩

/-- The comparison of R168 on a block that holds a response of ten bytes or more is FrameVerify's. -/
theorem compareAddress_agrees {req : List Byte} {len : Nat} {s : State} (hs : s.fault = 0#4) (hreq : 7 ≤ req.length)
    (hlen : 10 ≤ len) :
    ∃ d y r, frameVerify req (memRead s 0 len) = some r ∧
      compareAddress (slice req 1 7) s = .next (setD d (setOpd y s), r) := by
  obtain ⟨d, y, h⟩ := compareAddress_eq (slice req 1 7) hs
  refine ⟨d, y, _, ?_, h⟩
  rw [frameVerify_eq _ hreq, memRead_length, if_neg hlen.not_gt, slice_memRead s 0 (by omega)]

theorem hostVerify_agrees {req : List Byte} (len : Nat) {s : State} (hs : s.fault = 0#4) (hreq : 7 ≤ req.length) :
    ∃ d y r, frameVerify req (memRead s 0 len) = some r ∧
      hostVerify req len s = some (.next (setD d (setOpd y s), r)) := by
  rw [hostVerify, if_neg hreq.not_gt]
  by_cases hlen : len < 10
  · refine ⟨s.d, s.opd, .error .framing, ?_, if_pos hlen⟩
    rw [frameVerify_eq _ hreq, memRead_length, if_pos hlen]
  · obtain ⟨d, y, r, hverify, hhost⟩ := compareAddress_agrees hs hreq (Nat.le_of_not_lt hlen)
    exact ⟨d, y, r, hverify, by rw [if_neg hlen, hhost]⟩

/-- Settles O60: the slices that FrameVerify compares are equal when each byte is, and the block's LD commands read the
response's. -/
theorem verifyComparesTheAddress : Obligations.VerifyComparesTheAddress := by
  refine ⟨fun req resp hreq => ?_, fun req resp s hs hreq _ hresp => ?_⟩
  · have hslice : slice resp 1 7 = slice req 1 7 ↔ ∀ k, 1 ≤ k → k ≤ 6 → resp[k]? = req[k]? := by
      simp only [slice_eq_iff, Nat.lt_succ_iff]
    rw [frameVerify_eq resp hreq]
    refine ⟨fun h => ?_, fun h10 hdiff => ?_, fun h10 hsame => ?_⟩
    · rw [if_pos h]
    · have hne : slice resp 1 7 ≠ slice req 1 7 := fun h => by
        obtain ⟨k, h1, h6, hk⟩ := hdiff
        exact hk (hslice.mp h k h1 h6)
      rw [if_neg h10.not_gt, if_pos (bne_iff_ne.mpr hne)]
    · rw [if_neg h10.not_gt, hslice.mpr hsame, bne_self_eq_false, if_neg Bool.false_ne_true]
  · obtain ⟨d, y, r, hverify, hhost⟩ := hostVerify_agrees resp.length hs hreq
    exact ⟨_, r, hresp ▸ hverify, hhost, hs, fun _ => rfl⟩

/-! ### Decode (R163, R164) -/

/-- The function code that CTLX extracts, as a byte (R150). -/
theorem controlFc_setWidth (c : Byte) : (controlFc c).setWidth 8 = functionCodeOf c := by
  apply BitVec.eq_of_toNat_eq
  rw [functionCodeOf_toNat, controlFc_eq_mod, BitVec.toNat_setWidth, BitVec.toNat_ofNat]
  omega

/-- FrameDecode of the frame that the block holds at base 0. -/
theorem frameDecode_memRead (s : State) {n : Nat} (h10 : 10 ≤ n) (h210 : n ≤ 210) :
    frameDecode (memRead s 0 (n + 2)) =
      if sum8 (memRead s 0 n) ≠ fbRead s n then .error .checksum
      else if (fbRead s 9).toNat ≠ n - 10 then .error .framing
      else payloadOf (fbRead s 8) ((memRead s 10 (n - 10)).map deobf) := by
  have hparts : memRead s 0 (n + 2) = memRead s 0 n ++ [fbRead s n, fbRead s (n + 1)] := by
    rw [memRead_append, Nat.zero_add]
    rfl
  have hbyte : ∀ k, k < n → byteAt (memRead s 0 n) k = fbRead s k := fun k hk => by
    simp [byteAt, hk]
  have hdata : (memRead s 0 n).drop 10 = memRead s 10 (n - 10) := by
    obtain ⟨m, rfl⟩ := Nat.exists_eq_add_of_le h10
    rw [memRead_append, List.drop_left' (memRead_length ..), Nat.add_sub_cancel_left]
  rw [hparts, frameDecode_append _ _ (by simpa) (by simpa), memRead_length, hbyte 8 (by omega), hbyte 9 (by omega),
    hdata]

/-- CHKVFY on the block tells whether the stored checksum of a frame is the computed one (R113). -/
theorem afterMoves_chkvfy {n : Nat} {s : State} (hs : s.fault = 0#4) (hn : n ≤ 255) (α : Type) :
    ∃ t, (∀ next : State → HostResult α, afterMoves [issue (.chkvfy 0#8 (BitVec.ofNat 8 n))] s next = next t) ∧
      t.ckok = (sum8 (memRead s 0 n) == fbRead s n) ∧ t.fault = 0#4 ∧ SameMemory s t := by
  have hcount : (BitVec.ofNat 8 n).toNat = n := Nat.mod_eq_of_lt (by omega)
  have h := exec_chkvfy_inside (a := 0#8) (n := BitVec.ofNat 8 n) hs (by simpa [hcount])
  simp only [rangeBytes, checksumIndex, indexOf, countOf, hcount, BitVec.toNat_zero, Nat.zero_add] at h
  obtain ⟨y, hy⟩ := afterMoves_of_runsTo (runsTo_issue h) α
  exact ⟨_, hy, rfl, hs, fun _ => rfl⟩

/-- LD on the block shows the host one byte in `D` (R102). -/
theorem afterMoves_ld (a : Byte) {s : State} (hs : s.fault = 0#4) (α : Type) :
    ∃ t, (∀ next : State → HostResult α, afterMoves [issue (.ld a)] s next = next t) ∧
      t.d = fbRead s a.toNat ∧ t.fault = 0#4 ∧ SameMemory s t := by
  obtain ⟨y, hy⟩ := afterMoves_of_runsTo (runsTo_issue (exec_ld_running a hs)) α
  exact ⟨_, hy, rfl, hs, fun _ => rfl⟩

/-- CTLX and DEOBF of a frame with `m` data bytes (R142, R151): the control fields and the plain data, for the host to
read. -/
theorem afterMoves_ctlx_deobf {m : Nat} {s : State} (hs : s.fault = 0#4) (hm : 10 + m ≤ 256) (α : Type) :
    ∃ t, (∀ next : State → HostResult α,
        afterMoves [issue (.ctlx 8#8), issue (.deobf 10#8 (BitVec.ofNat 8 m))] s next = next t) ∧
      memRead t 10 m = (memRead s 10 m).map deobf ∧ t.errf = controlErr (fbRead s 8) ∧
      t.fup = controlFup (fbRead s 8) ∧ t.fc = controlFc (fbRead s 8) ∧ t.fault = 0#4 := by
  have hcount : (BitVec.ofNat 8 m).toNat = m := Nat.mod_eq_of_lt (by omega)
  have hctlx := exec_ctlx_running 8#8 hs (x := fbRead s 8) rfl
  have hdeobf : ∀ t : State, t.fault = 0#4 →
      exec (.deobf 10#8 (BitVec.ofNat 8 m)) t = .next (mapRange deobf 10#8 (BitVec.ofNat 8 m) t) := fun t ht =>
    exec_deobf_inside ht (hcount.symm ▸ hm)
  obtain ⟨y, hy⟩ := afterMoves_of_runsTo ((runsTo_issue hctlx).cons (runsTo_issue (hdeobf _ hs))) α
  refine ⟨_, hy, ?_, ?_⟩
  · apply List.ext_getElem
    · simp
    · intro j hj _
      have hj : j < m := by simpa using hj
      rw [memRead_getElem, fbRead_setOpd, fbRead_mapRange, hcount,
        if_pos ⟨Nat.le_add_right .., Nat.add_lt_add_left hj 10⟩]
      simp
  · rw [mapRange_eq]
    exact ⟨rfl, rfl, rfl, hs⟩

/-- The Decode sequence from CHKVFY on takes FrameDecode's branches: on CKOK, on `D` after LD 9, and on ERRF after
CTLX. -/
theorem decodeStored_agrees {len : Nat} {s : State} (hs : s.fault = 0#4) (h12 : 12 ≤ len) (h212 : len ≤ 212) :
    ∃ t, decodeStored len s = .next (t, frameDecode (memRead s 0 len)) ∧ t.fault = 0#4 := by
  obtain ⟨n, rfl⟩ : ∃ n, len = n + 2 := ⟨len - 2, by omega⟩
  rw [frameDecode_memRead s (by omega) (by omega), decodeStored, Nat.add_sub_cancel, Nat.add_sub_add_right _ 2 10]
  obtain ⟨s1, hchk, hok, hs1, hmem1⟩ := afterMoves_chkvfy hs (show n ≤ 255 by omega) (Except FrameError FramePayload)
  rw [hchk, hok]
  by_cases hsum : sum8 (memRead s 0 n) = fbRead s n
  case neg => exact ⟨s1, by rw [if_pos hsum, if_pos (by simpa using hsum)], hs1⟩
  rw [if_neg (not_not.mpr hsum), if_neg (by simpa using hsum)]
  obtain ⟨s2, hld, hd, hs2, hmem2⟩ := afterMoves_ld 9#8 hs1 (Except FrameError FramePayload)
  rw [hld, show s2.d = fbRead s 9 from hd.trans (hmem1 9)]
  by_cases hcount : (fbRead s 9).toNat = n - 10
  case neg => exact ⟨s2, by rw [if_pos hcount, if_pos (by simpa using hcount)], hs2⟩
  rw [if_neg (not_not.mpr hcount), if_neg (by simpa using hcount)]
  have hread : ∀ k, fbRead s2 k = fbRead s k := fun k => (hmem2 k).trans (hmem1 k)
  obtain ⟨s3, hctlx, hdata, herr, hfup, hfc, hs3⟩ :=
    afterMoves_ctlx_deobf (m := n - 10) hs2 (by omega) (Except FrameError FramePayload)
  obtain ⟨d, y, hbytes⟩ := readBytes_eq (a := 10) (n := n - 10) hs3 (by omega) (Except FrameError FramePayload)
  rw [hctlx, hbytes, hdata, memRead_congr fun j _ => hread _]
  refine ⟨setD d (setOpd y s3), ?_, hs3⟩
  simp only [setD_errf, setOpd_errf, setD_fup, setOpd_fup, setD_fc, setOpd_fc, herr, hfup, hfc, hread,
    controlFc_setWidth]
  generalize (memRead s 10 (n - 10)).map deobf = data
  cases herr : controlErr (fbRead s 8) with
  | false => rw [payloadOf_of_ok (.inr herr)]
  | true =>
    cases data with
    | nil => rw [payloadOf_of_ok (.inl rfl)]
    | cons x xs => rw [payloadOf_of_error herr]

/-- The length test of R164, and the sequence on the block where it passes. -/
theorem decodeStored_or_framing {len : Nat} {s : State} (hs : s.fault = 0#4) :
    ∃ t, (if decodableLength len then decodeStored len s else .next (s, .error .framing)) =
      .next (t, frameDecode (memRead s 0 len)) ∧ t.fault = 0#4 := by
  by_cases h : 12 ≤ len ∧ len ≤ 212
  · rw [if_pos ((decodableLength_iff len).mpr h)]
    exact decodeStored_agrees hs h.1 h.2
  · rw [if_neg (mt (decodableLength_iff len).mp h), frameDecode_of_length (by rw [memRead_length]; omega)]
    exact ⟨s, rfl, hs⟩

theorem hostDecode_agrees (raw : List Byte) {s : State} (hs : s.fault = 0#4) :
    ∃ t, hostDecode raw s = .next (t, frameDecode raw) ∧ t.fault = 0#4 := by
  by_cases h : 12 ≤ raw.length ∧ raw.length ≤ 212
  · obtain ⟨y, hstore⟩ := afterMoves_of_runsTo (runsTo_storeString (a := 0) (bytes := raw) hs (by omega))
      (Except FrameError FramePayload)
    obtain ⟨t, ht, hrun⟩ := decodeStored_agrees (s := setOpd y (memWrite 0 raw s)) (by simpa using hs) h.1 h.2
    rw [memRead_setOpd, memRead_memWrite] at ht
    exact ⟨t, by rw [hostDecode, if_pos ((decodableLength_iff _).mpr h), hstore, ht], hrun⟩
  · rw [hostDecode, if_neg (mt (decodableLength_iff _).mp h), frameDecode_of_length (by omega)]
    exact ⟨s, rfl, hs⟩

/-! ### The receive path (R168) -/

theorem frameReceive_error {req resp : List Byte} {e : FrameError} (h : frameVerify req resp = some (.error e)) :
    frameReceive req resp = some (.error e) := by
  rw [frameReceive, h]

theorem frameReceive_ok {req resp : List Byte} (h : frameVerify req resp = some (.ok ())) :
    frameReceive req resp = some (frameDecode resp) := by
  rw [frameReceive, h]

/-- After a Verify that agrees with FrameVerify, what follows agrees with FrameReceive. -/
theorem decodeIfVerified_agrees {req resp : List Byte} {r : Except FrameError Unit} {t : State}
    (hr : frameVerify req resp = some r) (ht : t.fault = 0#4) (hresp : memRead t 0 resp.length = resp) :
    ∃ u r', frameReceive req resp = some r' ∧ decodeIfVerified resp.length (.next (t, r)) = .next (u, r') ∧
      u.fault = 0#4 := by
  cases r with
  | error e => exact ⟨t, _, frameReceive_error hr, decodeIfVerified_error .., ht⟩
  | ok v =>
    obtain ⟨u, hu, hrun⟩ := decodeStored_or_framing (len := resp.length) ht
    rw [hresp] at hu
    exact ⟨u, _, frameReceive_ok hr, hu, hrun⟩

theorem hostVerifyRegenerated_agrees {addr : BitVec 48} {req resp : List Byte} {q : Byte} {s : State}
    (hs : s.fault = 0#4) (hreq : 7 ≤ req.length) (haddr : slice req 1 7 = addressField addr)
    (hq : resp.length ≤ q.toNat) (hq6 : q.toNat + 6 ≤ 256) (hresp : memRead s 0 resp.length = resp) :
    ∃ t r, frameVerify req resp = some r ∧ hostVerifyRegenerated addr q resp.length s = .next (t, r) ∧
      t.fault = 0#4 ∧ memRead t 0 resp.length = resp := by
  by_cases hlen : resp.length < 10
  · exact ⟨s, .error .framing, by rw [frameVerify_eq _ hreq, if_pos hlen], if_pos hlen, hs, hresp⟩
  obtain ⟨y, haddress⟩ := afterMoves_of_runsTo (runsTo_address addr hs hq6) (Except FrameError Unit)
  generalize hstored : setOpd y (storeEncoded q 6#8 (addressField addr) (setV (addr.setWidth 64) s)) = t at haddress
  have ht : t.fault = 0#4 := by simpa [← hstored, storeEncoded] using hs
  have hfield : memRead t q.toNat 6 = addressField addr := by
    rw [← hstored, memRead_setOpd]
    exact rangeBytes_storeEncoded (a := q) (size := 6#8) (addressField_length addr)
  have hkept : memRead t 0 resp.length = resp := by
    refine (memRead_congr fun j hj => ?_).trans hresp
    rw [← hstored, fbRead_setOpd, fbRead_storeEncoded_outside _ (addressField_length addr) (by omega), fbRead_setV]
  obtain ⟨d, y, hread⟩ := readBytes_eq ht hq6 (Except FrameError Unit)
  obtain ⟨d', y', r, hverify, hcompare⟩ := compareAddress_agrees (s := setD d (setOpd y t)) ht hreq
    (Nat.le_of_not_lt hlen)
  rw [memRead_setD, memRead_setOpd, hkept] at hverify
  refine ⟨setD d' (setOpd y' (setD d (setOpd y t))), r, hverify, ?_, ht, by
    simp only [memRead_setD, memRead_setOpd, hkept]⟩
  rw [hostVerifyRegenerated, if_neg hlen, haddress, hread, hfield, ← haddr, hcompare]

/-- Settles O59: the branches of the sequences are those of the functions, on the bytes that the block holds. -/
theorem decodeSequenceAgrees : Obligations.DecodeSequenceAgrees := by
  refine ⟨fun raw s hs => hostDecode_agrees raw hs, fun req resp => ⟨fun e => frameReceive_error, frameReceive_ok⟩,
    fun req resp s hs hreq _ hresp => ?_, fun addr p req resp q s hs henc hq hq6 hresp => ?_⟩
  · obtain ⟨d, y, r, hverify, hhost⟩ := hostVerify_agrees resp.length hs hreq
    rw [hresp] at hverify
    obtain ⟨t, r', hreceive, hdecode, hrun⟩ :=
      decodeIfVerified_agrees (t := setD d (setOpd y s)) hverify hs (by rw [memRead_setD, memRead_setOpd, hresp])
    exact ⟨t, r', hreceive, by rw [hostReceive, hhost, Option.map_some, hdecode], hrun⟩
  · obtain ⟨hdata, rfl⟩ := frameEncode_eq_ok_iff.mp henc
    obtain ⟨t, r, hverify, hhost, ht, hkept⟩ := hostVerifyRegenerated_agrees hs (by simp; omega)
      (slice_encodedFrame_address addr p) hq hq6 hresp
    obtain ⟨u, r', hreceive, hdecode, hrun⟩ := decodeIfVerified_agrees hverify ht hkept
    exact ⟨u, r', hreceive, by rw [hostReceiveRegenerated, hhost, hdecode], hrun⟩

end Sys2Proof.Machine

namespace Sys2Proof.Machine

/-! ## Faults, the halt, reset (60_exceptions.md)

### What a word does to FAULT (R181 to R184) -/

/-- A halted block changes nothing whatever the word, legal or illegal (R184). -/
theorem runWord_halted (cmd : CmdWord) {s : State} (hs : s.fault ≠ 0#4) : runWord cmd s = .next s := by
  cases hd : decode cmd with
  | error e => rw [runWord, hd, raiseFault_halted hs]
  | ok i => rw [runWord_of_decode hd, exec_halted i hs]

/-- A word that changes FAULT meets a running block, takes one of the two faults and does nothing else (R183). -/
theorem runWord_of_fault_ne {cmd : CmdWord} {s t : State} (h : runWord cmd s = .next t) (hne : t.fault ≠ s.fault) :
    s.fault = 0#4 ∧ ∃ f, t = setFault (faultCode f) s := by
  have hs : s.fault = 0#4 := by
    by_contra hs
    rw [runWord_halted cmd hs] at h
    exact hne (next_inj h ▸ rfl)
  refine ⟨hs, ?_⟩
  obtain ⟨-, -, rfl⟩ | ⟨i, -, hi⟩ := runWord_next h
  · exact ⟨.illegal, raiseFault_running hs⟩
  · have hl : 256 < extentEnd i := by
      by_contra hl
      exact hne (exec_fault_inside hi (Nat.le_of_not_lt hl))
    rw [exec_outside hs hl] at hi
    exact ⟨.range, (next_inj hi).symm⟩

theorem faultCode_eq_or (f : Fault) : faultCode f = 1#4 ∨ faultCode f = 2#4 := by
  cases f
  · exact .inl rfl
  · exact .inr rfl

/-- A command word to a halted block is taken off the host's list, and that is all (R184). -/
theorem step_command_halted {s : State} {cmd : CmdWord} {opd : Value} {rest : List HostMove}
    (hs : s.fault ≠ 0#4) (hm : s.host = .command cmd opd :: rest) :
    step s = .next { s with host := rest, opd := opd } := by
  rw [step_command hm]
  exact runWord_halted cmd hs

/-- After a reset the host reads zero everywhere (R36, R200). -/
@[simp] theorem outputs_resetBlock (s : State) : outputs (resetBlock s) = ⟨0#64, 0#8, 0#8, 0#8, 0#8⟩ := by
  have hreset : outputs State.reset = ⟨0#64, 0#8, 0#8, 0#8, 0#8⟩ := by decide
  exact hreset

/-! ### The obligations -/

/-- Settles O29: outside the buffer a command takes `F_RANGE` and nothing else, inside it no command touches FAULT. -/
theorem rangeFaultExactlyOutsideTheBuffer : Obligations.RangeFaultExactlyOutsideTheBuffer := by
  intro i s hs
  refine ⟨exec_outside hs, fun hl => ?_⟩
  obtain ⟨t, ht⟩ := exec_answers_next i s
  exact ⟨t, ht, (exec_fault_inside ht hl).trans hs⟩

/-- Settles O30: the step runs the word on the block without that move, and a word that changes FAULT changes nothing
else. -/
theorem faultEntryWritesOnlyFault : Obligations.FaultEntryWritesOnlyFault := by
  intro s t cmd opd rest hm h hne
  rw [step_command hm] at h
  obtain ⟨hs, f, rfl⟩ := runWord_of_fault_ne h hne
  exact ⟨hs, faultCode_eq_or f, rfl⟩

/-- Settles O31: no output shows the host's list or the operand bus, all that the transaction changes. -/
theorem haltedBlockIgnoresCommands : Obligations.HaltedBlockIgnoresCommands :=
  fun _ _ _ _ hs hm => ⟨_, step_command_halted hs hm, rfl, rfl⟩

/-- Settles O32: on a halted block an idle step and a command leave FAULT as it is, so the move was the reset. -/
theorem onlyResetLeavesTheHalt : Obligations.OnlyResetLeavesTheHalt := by
  intro s t hs h hne
  cases hm : s.host with
  | nil =>
    rw [step_idle hm] at h
    exact absurd (next_inj h ▸ rfl) hne
  | cons m rest =>
    cases m with
    | command cmd opd =>
      rw [step_command_halted hs hm] at h
      exact absurd (next_inj h ▸ rfl) hne
    | reset =>
      rw [step_reset hm] at h
      obtain rfl := next_inj h
      exact ⟨rfl, outputs_resetBlock _, rest, rfl⟩

end Sys2Proof.Machine

namespace Sys2Proof.Machine

/-! ## Runs: no stuck state, and nothing after a fault (70_reset_and_hazards.md, R204, R205) -/

/-- Every word is answered by a next state, the illegal ones too (R74, R205). -/
theorem runWord_answers_next (cmd : CmdWord) (s : State) : ∃ t, runWord cmd s = .next t := by
  cases hd : decode cmd with
  | error e => exact ⟨raiseFault .illegal s, by rw [runWord, hd]⟩
  | ok i =>
    rw [runWord_of_decode hd]
    exact exec_answers_next i s

/-- Settles O37: idle, at a command word and at a reset, the block answers a next state. -/
theorem everyStepCompletes : Obligations.EveryStepCompletes := by
  intro s
  cases hm : s.host with
  | nil => exact ⟨s, step_idle hm⟩
  | cons m rest =>
    cases m with
    | command cmd opd =>
      rw [step_command hm]
      exact runWord_answers_next cmd _
    | reset => exact ⟨_, step_reset hm⟩

/-- Commands to a halted block only pass over its operand bus (R184). -/
theorem takeMoves_commandMoves_halted (program : List (CmdWord × Value)) {s : State} (hs : s.fault ≠ 0#4) :
    ∃ opd, takeMoves (commandMoves program) s = .next (setOpd opd s) := by
  induction program generalizing s with
  | nil => exact ⟨s.opd, rfl⟩
  | cons c cs ih =>
    obtain ⟨opd, hcs⟩ := ih (s := setOpd c.2 s) hs
    have hc : takeMove (.command c.1 c.2) s = .next (setOpd c.2 s) := runWord_halted c.1 hs
    exact ⟨opd, by rw [commandMoves_cons, takeMoves_cons hc, hcs]; rfl⟩

theorem successful_next_iff {t : State} : Successful (.next t) ↔ t.fault = 0#4 :=
  ⟨fun ⟨_, hu, h⟩ => next_inj hu ▸ h, fun h => ⟨t, rfl, h⟩⟩

/-- Moves that leave the block halted, and commands after them: the state but for the bus, and no success (R204). -/
theorem takeMoves_append_commandMoves_halted {first : List HostMove} (rest : List (CmdWord × Value)) {s t : State}
    (h : takeMoves first s = .next t) (ht : t.fault ≠ 0#4) :
    (∃ opd, takeMoves (first ++ commandMoves rest) s = .next { t with opd := opd }) ∧
      ¬ Successful (takeMoves (first ++ commandMoves rest) s) := by
  obtain ⟨opd, hrest⟩ := takeMoves_commandMoves_halted rest ht
  rw [takeMoves_append h, hrest, successful_next_iff]
  exact ⟨⟨opd, rfl⟩, ht⟩

/-- A run of a program and then more commands is the moves of the first run and then those commands (R204). -/
theorem runFromReset_append (program rest : List (CmdWord × Value)) (s : State) :
    runFromReset (program ++ rest) s = takeMoves ((.reset :: commandMoves program) ++ commandMoves rest) s := by
  rw [runFromReset, commandMoves_append, List.cons_append]

/-- Settles O44: the halted block ignores the commands that follow, and a run of R204 is a list of moves. -/
theorem commandsAfterAFaultDoNothing : Obligations.CommandsAfterAFaultDoNothing := by
  refine ⟨fun first rest s t h ht => takeMoves_append_commandMoves_halted rest h ht, fun program rest s t h ht => ?_⟩
  rw [runFromReset_append]
  exact takeMoves_append_commandMoves_halted rest h ht

end Sys2Proof.Machine
